-- ==== Sys2Proof/Word.lean ====
section
/-! DEFINITION. The word types of the core. Every value is an unsigned bit vector of a stated width
(R9); a byte is 8 bits (R61). -/

namespace Sys2Proof

/-- One byte of a buffer, a key or an AES state (R61). -/
abbrev Byte := BitVec 8

/-- A command word (R90). -/
abbrev CommandWord := BitVec 16

/-- The container of a value the host port carries: as wide as the widest register, `KEYIN` (R25). -/
abbrev HostValue := BitVec 256

/-- The container of a cipher block: a 128-bit block, or a 64-bit block in its low half (R29). -/
abbrev Block := BitVec 128

end Sys2Proof
end

