-- ==== Sys2Proof/Syntax.lean ====
section
/-! DEFINITION. The nine commands of the opcode map (R93), one constructor each. -/

namespace Sys2Proof

/-- A command. `nlen` is the key length as a count of hexadecimal digits (R91, R92); every other
operand is a register named by the command's rule, not a field of the word. -/
inductive Instr where
  /-- `KEYLOAD.DES nlen` (R121). -/
  | keyloadDes (nlen : Nat)
  /-- `KEYLOAD.TDES nlen` (R122). -/
  | keyloadTdes (nlen : Nat)
  /-- `KEYLOAD.AES nlen` (R123). -/
  | keyloadAes (nlen : Nat)
  /-- `KEYCLR` (R128). -/
  | keyclr
  /-- `ENC` (R126). -/
  | enc
  /-- `DEC` (R127). -/
  | dec
  /-- `CTRX` (R305). -/
  | ctrx
  /-- `STRE` (R310). -/
  | stre
  /-- `STRD` (R311). -/
  | strd
deriving DecidableEq, Repr

end Sys2Proof
end

