-- ==== Sys2Proof/WellFormed.lean ====
section
/-! DEFINITION. Which commands the encoding admits: `nlen` is 0 to 255 (R91). -/

namespace Sys2Proof

/-- `nlen` fits its field, bits 7:0 of the word (R91, R92). -/
def nlenAdmitted (nlen : Nat) : Bool := decide (nlen < 256)

/-- Every field of the command is a value its encoding can carry (R90, R91). -/
def Instr.wellFormed : Instr → Bool
  | .keyloadDes nlen => nlenAdmitted nlen
  | .keyloadTdes nlen => nlenAdmitted nlen
  | .keyloadAes nlen => nlenAdmitted nlen
  | .keyclr => true
  | .enc => true
  | .dec => true
  | .ctrx => true
  | .stre => true
  | .strd => true

end Sys2Proof
end

