-- ==== Sys2Proof/Decode.lean ====
section
/-! DEFINITION. The decoder of a command word (R90 to R95), total on every 16-bit word and
rejecting by name, and after it the encoder. A word is written to `CMD` whole (R30), so there is no
byte order to settle and no word has an operand word after it. -/

namespace Sys2Proof

/-- Why a word is an illegal command: the three cases R94 lists. -/
inductive DecodeError where
  /-- `op` = 0 or `op` in 8..15. -/
  | reservedOp
  /-- `op` = 1 with `fam` = 3. -/
  | reservedFamily
  /-- A must-be-zero bit is set: bits 11:10 with `op` = 1, or any of bits 11:0 with `op` in 2..7. -/
  | zeroFieldSet
deriving DecidableEq, Repr

/-- Field `op`, bits 15:12 (R91). -/
def fieldOp (w : CommandWord) : BitVec 4 := w.extractLsb' 12 4

/-- The must-be-zero field of format K, bits 11:10 (R90). -/
def fieldZeroK (w : CommandWord) : BitVec 2 := w.extractLsb' 10 2

/-- Field `fam`, bits 9:8 of format K (R91). -/
def fieldFam (w : CommandWord) : BitVec 2 := w.extractLsb' 8 2

/-- Field `nlen`, bits 7:0 of format K, unsigned and not scaled (R92). -/
def fieldNlen (w : CommandWord) : Nat := (w.extractLsb' 0 8).toNat

/-- The must-be-zero field of format N, bits 11:0 (R90). -/
def fieldZeroN (w : CommandWord) : BitVec 12 := w.extractLsb' 0 12

/-- Format K, key load (R90): the family is decoded by the table of R91. -/
def decodeKeyload (w : CommandWord) : Except DecodeError Instr :=
  if fieldZeroK w ≠ 0#2 then .error .zeroFieldSet
  else match (fieldFam w).toNat with
    | 0 => .ok (.keyloadDes (fieldNlen w))
    | 1 => .ok (.keyloadTdes (fieldNlen w))
    | 2 => .ok (.keyloadAes (fieldNlen w))
    | _ => .error .reservedFamily

/-- Format N, no operand (R90). -/
def decodeNoOperand (w : CommandWord) (i : Instr) : Except DecodeError Instr :=
  if fieldZeroN w ≠ 0#12 then .error .zeroFieldSet else .ok i

/-- The opcode map of R93. Decoding depends on the word alone (R95). -/
def decodeWord (w : CommandWord) : Except DecodeError Instr :=
  match (fieldOp w).toNat with
  | 1 => decodeKeyload w
  | 2 => decodeNoOperand w .keyclr
  | 3 => decodeNoOperand w .enc
  | 4 => decodeNoOperand w .dec
  | 5 => decodeNoOperand w .ctrx
  | 6 => decodeNoOperand w .stre
  | 7 => decodeNoOperand w .strd
  | _ => .error .reservedOp

/-- The command the decoder reads from the table's word `w` of `nbits` bits; every bit above them is
0. The core has one word length, 16 bits (R90). For other numbers of bits, DESIGN CHOICE (log entry 10): the low 16 of the
bits `w` has below `nbits`. -/
def decodeTableWord (nbits w : Nat) : Option Instr :=
  (decodeWord (BitVec.ofNat 16 (w % 2 ^ nbits))).toOption

/-- A word of format K (R90): `op` = 1, the zero field, `fam`, `nlen`, which is 0 to 255 (R91). For an `nlen` of 256 or more,
which is no command's, DESIGN CHOICE (log entry 10): the word of `nlen` modulo 256. -/
def encodeKeyload (fam : BitVec 2) (nlen : Nat) : CommandWord :=
  (1#4 ++ 0#2 : BitVec 6) ++ fam ++ BitVec.ofNat 8 nlen

/-- A word of format N (R90): `op` and the zero field. -/
def encodeNoOperand (op : BitVec 4) : CommandWord := op ++ 0#12

/-- The word of a command, from the formats of R90 and the codes of R91. An ill-formed command has the word that
`encodeKeyload` gives it (log entry 10). -/
def encode : Instr → CommandWord
  | .keyloadDes nlen => encodeKeyload 0#2 nlen
  | .keyloadTdes nlen => encodeKeyload 1#2 nlen
  | .keyloadAes nlen => encodeKeyload 2#2 nlen
  | .keyclr => encodeNoOperand 2#4
  | .enc => encodeNoOperand 3#4
  | .dec => encodeNoOperand 4#4
  | .ctrx => encodeNoOperand 5#4
  | .stre => encodeNoOperand 6#4
  | .strd => encodeNoOperand 7#4

end Sys2Proof
end

