-- ==== Sys2Proof/Config.lean ====
section
/-! DEFINITION. What an implementation fixes (the parameters of R8) and the one free value of the
spec (S1: what a buffer byte holds before anything has written it). -/

namespace Sys2Proof

/-- The three placements of a 56-bit DES key in the 64-bit container that the spec names: the
default of R195 and the two other readings of decision D5. What each computes is
`Sys2Proof.Machine.pack56`. -/
inductive Pack56 where
  /-- The default: `zext_64(k)` (R195). -/
  | zeroExtend
  /-- D5 (a): `k << 8`. -/
  | leftAligned
  /-- D5 (b): seven key bits in the high end of each container byte. -/
  | parityExpand
deriving DecidableEq, Repr

/-- The parameters of R8, as plain data that no command and no host access changes. DESIGN CHOICE
(log entry 1): they stand in `State`, so that a statement about every state holds for every value
of them. -/
structure Config where
  /-- Each buffer holds `16 * (bufBlocksLessOne + 1)` bytes: exactly the multiples of 16 from 16 to
  below `2^32` (R8). -/
  bufBlocksLessOne : Fin 268435455
  /-- The stream unit has `lanesLessOne + 1` lanes: every number from 1 up (R8). -/
  lanesLessOne : Nat
  /-- Which `PACK56` the core has (R8, R195). -/
  pack : Pack56
deriving DecidableEq, Repr

/-- `BUFBYTES`, the size in bytes of each stream buffer (R8, R44). -/
def Config.bufBytes (c : Config) : Nat := 16 * (c.bufBlocksLessOne.val + 1)

/-- `NLANES`, the number of lanes of the stream unit (R8, R315). -/
def Config.lanes (c : Config) : Nat := c.lanesLessOne + 1

/-- The parameter values of `State.reset`: `BUFBYTES` = 64, which the vectors and programs use (S3),
four lanes, and the default `PACK56`. DESIGN CHOICE (log entry 1). -/
def Config.vectors : Config := ⟨⟨3, by decide⟩, 3, .zeroExtend⟩

/-- The two byte buffers of R60. -/
inductive Space where
  /-- The stream input, written by the host. -/
  | ibuf
  /-- The stream output, written by the stream commands. -/
  | obuf
deriving DecidableEq, Repr

/-- FREE VALUE (S1, R50; log entry 2): what byte `a` of a buffer reads as when nothing has written it
since reset number `epoch`. Nothing constrains it. -/
opaque Config.unwrittenByte (space : Space) (epoch : Nat) (a : Nat) : Byte

end Sys2Proof
end

