-- ==== Sys2Proof/Machine/Sbox.lean ====
section
/-! DEFINITION. The DES S-box substitution ROM array (spec file 42): eight constant ROMs of 4 rows by 16
columns of 4-bit words, and the function that reads all eight. -/

namespace Sys2Proof.Machine

/-- The entry of a constant ROM at a row and a column; no use reads outside the rows. DESIGN CHOICE:
zero there (log entry 10). -/
def romEntry {w : Nat} (rows : List (List (BitVec w))) (row col : Nat) : BitVec w :=
  ((rows[row]?.getD [])[col]?).getD 0#w

/-- ROM 0: the standard table S1 (R171). -/
def sboxRom0 : List (List (BitVec 4)) :=
  [[14, 4, 13, 1, 2, 15, 11, 8, 3, 10, 6, 12, 5, 9, 0, 7],
   [0, 15, 7, 4, 14, 2, 13, 1, 10, 6, 12, 11, 9, 5, 3, 8],
   [4, 1, 14, 8, 13, 6, 2, 11, 15, 12, 9, 7, 3, 10, 5, 0],
   [15, 12, 8, 2, 4, 9, 1, 7, 5, 11, 3, 14, 10, 0, 6, 13]]

/-- ROM 1: the standard table S2 (R171). -/
def sboxRom1 : List (List (BitVec 4)) :=
  [[15, 1, 8, 14, 6, 11, 3, 4, 9, 7, 2, 13, 12, 0, 5, 10],
   [3, 13, 4, 7, 15, 2, 8, 14, 12, 0, 1, 10, 6, 9, 11, 5],
   [0, 14, 7, 11, 10, 4, 13, 1, 5, 8, 12, 6, 9, 3, 2, 15],
   [13, 8, 10, 1, 3, 15, 4, 2, 11, 6, 7, 12, 0, 5, 14, 9]]

/-- ROM 2: the standard table S3 (R171). -/
def sboxRom2 : List (List (BitVec 4)) :=
  [[10, 0, 9, 14, 6, 3, 15, 5, 1, 13, 12, 7, 11, 4, 2, 8],
   [13, 7, 0, 9, 3, 4, 6, 10, 2, 8, 5, 14, 12, 11, 15, 1],
   [13, 6, 4, 9, 8, 15, 3, 0, 11, 1, 2, 12, 5, 10, 14, 7],
   [1, 10, 13, 0, 6, 9, 8, 7, 4, 15, 14, 3, 11, 5, 2, 12]]

/-- ROM 3: the standard table S4 (R171). -/
def sboxRom3 : List (List (BitVec 4)) :=
  [[7, 13, 14, 3, 0, 6, 9, 10, 1, 2, 8, 5, 11, 12, 4, 15],
   [13, 8, 11, 5, 6, 15, 0, 3, 4, 7, 2, 12, 1, 10, 14, 9],
   [10, 6, 9, 0, 12, 11, 7, 13, 15, 1, 3, 14, 5, 2, 8, 4],
   [3, 15, 0, 6, 10, 1, 13, 8, 9, 4, 5, 11, 12, 7, 2, 14]]

/-- ROM 4: the standard table S5 (R171). -/
def sboxRom4 : List (List (BitVec 4)) :=
  [[2, 12, 4, 1, 7, 10, 11, 6, 8, 5, 3, 15, 13, 0, 14, 9],
   [14, 11, 2, 12, 4, 7, 13, 1, 5, 0, 15, 10, 3, 9, 8, 6],
   [4, 2, 1, 11, 10, 13, 7, 8, 15, 9, 12, 5, 6, 3, 0, 14],
   [11, 8, 12, 7, 1, 14, 2, 13, 6, 15, 0, 9, 10, 4, 5, 3]]

/-- ROM 5: the standard table S6 (R171). -/
def sboxRom5 : List (List (BitVec 4)) :=
  [[12, 1, 10, 15, 9, 2, 6, 8, 0, 13, 3, 4, 14, 7, 5, 11],
   [10, 15, 4, 2, 7, 12, 9, 5, 6, 1, 13, 14, 0, 11, 3, 8],
   [9, 14, 15, 5, 2, 8, 12, 3, 7, 0, 4, 10, 1, 13, 11, 6],
   [4, 3, 2, 12, 9, 5, 15, 10, 11, 14, 1, 7, 6, 0, 8, 13]]

/-- ROM 6: the standard table S7 (R171). -/
def sboxRom6 : List (List (BitVec 4)) :=
  [[4, 11, 2, 14, 15, 0, 8, 13, 3, 12, 9, 7, 5, 10, 6, 1],
   [13, 0, 11, 7, 4, 9, 1, 10, 14, 3, 5, 12, 2, 15, 8, 6],
   [1, 4, 11, 13, 12, 3, 7, 14, 10, 15, 6, 8, 0, 5, 9, 2],
   [6, 11, 13, 8, 1, 4, 10, 7, 9, 5, 0, 15, 14, 2, 3, 12]]

/-- ROM 7: the standard table S8 (R171). -/
def sboxRom7 : List (List (BitVec 4)) :=
  [[13, 2, 8, 4, 6, 15, 11, 1, 10, 9, 3, 14, 5, 0, 12, 7],
   [1, 15, 13, 8, 10, 3, 7, 4, 12, 5, 6, 11, 0, 14, 9, 2],
   [7, 11, 4, 1, 9, 12, 14, 2, 0, 6, 10, 13, 15, 3, 5, 8],
   [2, 1, 14, 7, 4, 10, 8, 13, 15, 12, 9, 0, 3, 5, 6, 11]]

/-- `SBOX[s]`, the eight ROMs in order (R22, R170). -/
def sboxRoms : List (List (List (BitVec 4))) :=
  [sboxRom0, sboxRom1, sboxRom2, sboxRom3, sboxRom4, sboxRom5, sboxRom6, sboxRom7]

/-- `SBOX[s][row][col]` (R22). Outside the eight ROMs and their 4 rows by 16 columns, DESIGN CHOICE (log entry 10): zero. -/
def sbox (s row col : Nat) : BitVec 4 := romEntry (sboxRoms[s]?.getD []) row col

/-- The output of ROM `s`, `s` in 0..7, for the chunk `c`: the row is the outer two bits, the column the middle four
(R172). For an `s` above 7, DESIGN CHOICE (log entry 10): zero. -/
def sboxChunk (s : Nat) (c : BitVec 6) : BitVec 4 :=
  sbox s ((c.extractLsb' 5 1).toNat * 2 + (c.extractLsb' 0 1).toNat) (c.extractLsb' 1 4).toNat

/-- `Substitute` (R172): chunk `i`, from the least significant end, reads ROM `7 - i` and drives nibble
`i`. -/
def substitute (x : BitVec 48) : BitVec 32 :=
  (List.range 8).foldl
    (fun acc i => acc ||| ((sboxChunk (7 - i) (x.extractLsb' (6 * i) 6)).setWidth 32 <<< (4 * i))) 0#32

end Sys2Proof.Machine
end

