-- ==== Sys2Proof/Machine/Aes.lean ====
section
/-! DEFINITION. The AES round steps, the round forms and the block transform (spec file 47), and the AES
key-schedule expander (spec file 46). -/

namespace Sys2Proof.Machine

/-- A word: 4 bytes, `b0` first (R244). A column of the AES state has the same shape (R270). -/
structure AesWord where
  /-- Byte 0. -/
  b0 : Byte
  /-- Byte 1. -/
  b1 : Byte
  /-- Byte 2. -/
  b2 : Byte
  /-- Byte 3. -/
  b3 : Byte
deriving DecidableEq, Repr

/-- Sixteen bytes: an AES state or a round key, byte `j` in row `j mod 4` and column `j div 4` (R270,
R246). -/
abbrev AesBlock := Vector Byte 16

/-- The block whose bytes are all zero: what an unused entry of `RKA` holds (R42). -/
def zeroAesBlock : AesBlock := Vector.replicate 16 0#8

/-- The 16 bytes of four columns, first column first (R270, R246). -/
def ofColumns (c0 c1 c2 c3 : AesWord) : AesBlock :=
  #v[c0.b0, c0.b1, c0.b2, c0.b3, c1.b0, c1.b1, c1.b2, c1.b3,
     c2.b0, c2.b1, c2.b2, c2.b3, c3.b0, c3.b1, c3.b2, c3.b3]

/-- Replace each column of a state by the function's value on it (R275, R276). -/
def mapColumns (f : AesWord → AesWord) (s : AesBlock) : AesBlock :=
  ofColumns (f ⟨s[0], s[1], s[2], s[3]⟩) (f ⟨s[4], s[5], s[6], s[7]⟩)
    (f ⟨s[8], s[9], s[10], s[11]⟩) (f ⟨s[12], s[13], s[14], s[15]⟩)

/-! ### The four steps and their inverses (R271 to R277) -/

/-- `SubBytes` (R271). -/
def subBytes (s : AesBlock) : AesBlock := s.map asbox

/-- `InvSubBytes` (R272). -/
def invSubBytes (s : AesBlock) : AesBlock := s.map ainv

/-- `ShiftRows` (R273): byte `j` of the result is in row `r = j mod 4`, column `c = j div 4`, and comes
from column `(c + r) mod 4` of its row. -/
def shiftRows (s : AesBlock) : AesBlock :=
  Vector.ofFn fun j : Fin 16 => s[j.val % 4 + 4 * ((j.val / 4 + j.val % 4) % 4)]

/-- `InvShiftRows` (R274): from column `(c - r) mod 4` of its row. -/
def invShiftRows (s : AesBlock) : AesBlock :=
  Vector.ofFn fun j : Fin 16 => s[j.val % 4 + 4 * ((j.val / 4 + 4 - j.val % 4) % 4)]

/-- One column of `MixColumns` (R275). -/
def mixColumn (a : AesWord) : AesWord where
  b0 := gmul a.b0 2#8 ^^^ gmul a.b1 3#8 ^^^ a.b2 ^^^ a.b3
  b1 := a.b0 ^^^ gmul a.b1 2#8 ^^^ gmul a.b2 3#8 ^^^ a.b3
  b2 := a.b0 ^^^ a.b1 ^^^ gmul a.b2 2#8 ^^^ gmul a.b3 3#8
  b3 := gmul a.b0 3#8 ^^^ a.b1 ^^^ a.b2 ^^^ gmul a.b3 2#8

/-- One column of `InvMixColumns` (R276). -/
def invMixColumn (a : AesWord) : AesWord where
  b0 := gmul a.b0 0x0E#8 ^^^ gmul a.b1 0x0B#8 ^^^ gmul a.b2 0x0D#8 ^^^ gmul a.b3 0x09#8
  b1 := gmul a.b0 0x09#8 ^^^ gmul a.b1 0x0E#8 ^^^ gmul a.b2 0x0B#8 ^^^ gmul a.b3 0x0D#8
  b2 := gmul a.b0 0x0D#8 ^^^ gmul a.b1 0x09#8 ^^^ gmul a.b2 0x0E#8 ^^^ gmul a.b3 0x0B#8
  b3 := gmul a.b0 0x0B#8 ^^^ gmul a.b1 0x0D#8 ^^^ gmul a.b2 0x09#8 ^^^ gmul a.b3 0x0E#8

/-- `MixColumns` (R275). -/
def mixColumns (s : AesBlock) : AesBlock := mapColumns mixColumn s

/-- `InvMixColumns` (R276). -/
def invMixColumns (s : AesBlock) : AesBlock := mapColumns invMixColumn s

/-- `AddRoundKey` (R277). -/
def addRoundKey (s k : AesBlock) : AesBlock := Vector.zipWith (· ^^^ ·) s k

/-! ### The four round forms (R278) -/

/-- `Round` (R278). -/
def aesRound (s k : AesBlock) : AesBlock := addRoundKey (mixColumns (shiftRows (subBytes s))) k

/-- `FinalRound` (R278): no `MixColumns`. -/
def aesFinalRound (s k : AesBlock) : AesBlock := addRoundKey (shiftRows (subBytes s)) k

/-- `InvRound` (R278). -/
def aesInvRound (s k : AesBlock) : AesBlock :=
  addRoundKey (invMixColumns (invShiftRows (invSubBytes s))) k

/-- `InvFinalRound` (R278): no `InvMixColumns`. -/
def aesInvFinalRound (s k : AesBlock) : AesBlock := addRoundKey (invShiftRows (invSubBytes s)) k

/-! ### The key schedule (R244 to R247) -/

/-- XOR of words, byte by byte (R244). -/
def AesWord.xor (a b : AesWord) : AesWord := ⟨a.b0 ^^^ b.b0, a.b1 ^^^ b.b1, a.b2 ^^^ b.b2, a.b3 ^^^ b.b3⟩

/-- The word of four zero bytes. -/
def AesWord.zero : AesWord := ⟨0#8, 0#8, 0#8, 0#8⟩

/-- `RotWord` (R244). -/
def rotWord (w : AesWord) : AesWord := ⟨w.b1, w.b2, w.b3, w.b0⟩

/-- `SubWord` (R244). -/
def subWord (w : AesWord) : AesWord := ⟨asbox w.b0, asbox w.b1, asbox w.b2, asbox w.b3⟩

/-- `Rc` (R244): the round constant touches the first byte only. Past the end of `RCON`, DESIGN CHOICE (log entry 10): the zero
word. -/
def rcWord (n : Nat) : AesWord := ⟨rcon n, 0#8, 0#8, 0#8⟩

/-- Word `i` of an array of words; no use reads outside it. DESIGN CHOICE: zero there (log entry 10). -/
def wordAt (ws : List AesWord) (i : Nat) : AesWord := (ws[i]?).getD AesWord.zero

/-- The value `t` that R245 XORs into `w[i]`, computed from `w[i-1]`. -/
def expandTerm (nk i : Nat) (prev : AesWord) : AesWord :=
  if i % nk = 0 then (subWord (rotWord prev)).xor (rcWord (i / nk - 1))
  else if nk = 8 ∧ i % nk = 4 then subWord prev
  else prev

/-- `n` further words of the recurrence of R245 after the words `ws`. -/
def expandWords (nk : Nat) : Nat → List AesWord → List AesWord
  | 0, ws => ws
  | n + 1, ws =>
    let i := ws.length
    expandWords nk n (ws ++ [(wordAt ws (i - nk)).xor (expandTerm nk i (wordAt ws (i - 1)))])

/-- The words of a key: `w[i] = [key[4i], key[4i+1], key[4i+2], key[4i+3]]` for `i` below `nk` (R245).
The key's bytes are given as a function of their number. -/
def keyWords (nk : Nat) (key : Nat → Byte) : List AesWord :=
  (List.range nk).map fun i => ⟨key (4 * i), key (4 * i + 1), key (4 * i + 2), key (4 * i + 3)⟩

/-- `Nr` of a key of `nk` words (R245). -/
def roundsOf (nk : Nat) : Nat := nk + 6

/-- `AesExpand` (R245): `4 * (Nr + 1)` words, `nk` 4, 6 or 8. For another `nk`, DESIGN CHOICE (log entry 10): the same
recurrence. -/
def aesExpand (nk : Nat) (key : Nat → Byte) : List AesWord :=
  expandWords nk (4 * (roundsOf nk + 1) - nk) (keyWords nk key)

/-- `EK[r]`, `r` up to `Nr` (R246): four words of the expansion, byte 0 of `w[4r]` first. Past the words, DESIGN CHOICE (log entry
10): zero bytes. -/
def forwardKey (ws : List AesWord) (r : Nat) : AesBlock :=
  ofColumns (wordAt ws (4 * r)) (wordAt ws (4 * r + 1)) (wordAt ws (4 * r + 2)) (wordAt ws (4 * r + 3))

/-- Entry `k` of the array of R247: `EK[k]` up to `Nr`, then the transformed keys in reverse order, `2*Nr`
entries in all, and zero in the entries of `RKA` not in use (R42). -/
def roundKeyEntry (ws : List AesWord) (nr k : Nat) : AesBlock :=
  if k ≤ nr then forwardKey ws k
  else if k < 2 * nr then invMixColumns (forwardKey ws (2 * nr - k))
  else zeroAesBlock

/-- The AES round-key array, 28 entries (R42). -/
abbrev RoundKeys := Vector AesBlock 28

/-- The array whose entries are all zero (R42). -/
def zeroRoundKeys : RoundKeys := Vector.replicate 28 zeroAesBlock

/-- `AesDeriveRka` (R247), as `KEYLOAD.AES` stores it (R123), `nk` 4, 6 or 8. For another `nk`, DESIGN CHOICE (log entry 10): the
same entries, cut off at 28. -/
def aesDeriveRka (nk : Nat) (key : Nat → Byte) : RoundKeys :=
  let ws := aesExpand nk key
  Vector.ofFn fun k : Fin 28 => roundKeyEntry ws (roundsOf nk) k.val

/-! ### The block transform (R280, R281) -/

/-- `rk[k]`; no instance reads outside the array. DESIGN CHOICE: zero there (log entry 10). -/
def keyAt (rk : RoundKeys) (k : Nat) : AesBlock := (rk[k]?).getD zeroAesBlock

/-- `AesEncrypt` (R280), `nr` 10, 12 or 14. For another `nr`, DESIGN CHOICE (log entry 10): the same structure, with no full
round for 0. -/
def aesEncrypt (block : AesBlock) (rk : RoundKeys) (nr : Nat) : AesBlock :=
  aesFinalRound
    ((List.range (nr - 1)).foldl (fun s r => aesRound s (keyAt rk (r + 1))) (addRoundKey block (keyAt rk 0)))
    (keyAt rk nr)

/-- `AesDecrypt` (R281), the equivalent inverse cipher, `nr` 10, 12 or 14. For another `nr`, DESIGN CHOICE (log entry 10): the
same structure, with no full round for 0. -/
def aesDecrypt (block : AesBlock) (rk : RoundKeys) (nr : Nat) : AesBlock :=
  aesInvFinalRound
    ((List.range (nr - 1)).foldl (fun s r => aesInvRound s (keyAt rk (nr + (r + 1))))
      (addRoundKey block (keyAt rk nr)))
    (keyAt rk 0)

end Sys2Proof.Machine
end

