-- ==== Sys2Proof/Machine/Permutation.lean ====
section
/-! DEFINITION. The DES bit-permutation datapath and its six wiring tables (spec file 41). Every table
holds zero-based MSB-0 source indices, in order of output position. -/

namespace Sys2Proof.Machine

/-- `Permute` (R150): bit `i` of the result, counted from its most significant end, is bit `table[i]`
of `x`, counted from the most significant end of the input width. R150 gives a table of `outW` entries below `inW`; for another,
DESIGN CHOICE (log entry 10): an entry past the input gives 0, the entries stand in the low bits and the first ones of too
long a table are lost. -/
def permute {inW : Nat} (table : List Nat) (outW : Nat) (x : BitVec inW) : BitVec outW :=
  table.foldl (fun acc t => acc.shiftConcat (x.getMsbD t)) 0#outW

/-- `IP`, InitialPermutation, 64 to 64 bits (R152). -/
def ipTable : List Nat :=
  [57, 49, 41, 33, 25, 17, 9, 1,
   59, 51, 43, 35, 27, 19, 11, 3,
   61, 53, 45, 37, 29, 21, 13, 5,
   63, 55, 47, 39, 31, 23, 15, 7,
   56, 48, 40, 32, 24, 16, 8, 0,
   58, 50, 42, 34, 26, 18, 10, 2,
   60, 52, 44, 36, 28, 20, 12, 4,
   62, 54, 46, 38, 30, 22, 14, 6]

/-- `FP`, FinalPermutation, 64 to 64 bits (R153). -/
def fpTable : List Nat :=
  [39, 7, 47, 15, 55, 23, 63, 31,
   38, 6, 46, 14, 54, 22, 62, 30,
   37, 5, 45, 13, 53, 21, 61, 29,
   36, 4, 44, 12, 52, 20, 60, 28,
   35, 3, 43, 11, 51, 19, 59, 27,
   34, 2, 42, 10, 50, 18, 58, 26,
   33, 1, 41, 9, 49, 17, 57, 25,
   32, 0, 40, 8, 48, 16, 56, 24]

/-- `E`, Expansion, 32 to 48 bits (R154). -/
def expansionTable : List Nat :=
  [31, 0, 1, 2, 3, 4,
   3, 4, 5, 6, 7, 8,
   7, 8, 9, 10, 11, 12,
   11, 12, 13, 14, 15, 16,
   15, 16, 17, 18, 19, 20,
   19, 20, 21, 22, 23, 24,
   23, 24, 25, 26, 27, 28,
   27, 28, 29, 30, 31, 0]

/-- `P`, FeistelPermutation, 32 to 32 bits (R155). -/
def feistelPTable : List Nat :=
  [15, 6, 19, 20,
   28, 11, 27, 16,
   0, 14, 22, 25,
   4, 17, 30, 9,
   1, 7, 23, 13,
   31, 26, 2, 8,
   18, 12, 29, 5,
   21, 10, 3, 24]

/-- `PC1`, PermutedChoice1, 64 to 56 bits; the input is the key container (R156). -/
def pc1Table : List Nat :=
  [56, 48, 40, 32, 24, 16, 8,
   0, 57, 49, 41, 33, 25, 17,
   9, 1, 58, 50, 42, 34, 26,
   18, 10, 2, 59, 51, 43, 35,
   62, 54, 46, 38, 30, 22, 14,
   6, 61, 53, 45, 37, 29, 21,
   13, 5, 60, 52, 44, 36, 28,
   20, 12, 4, 27, 19, 11, 3]

/-- `PC2`, PermutedChoice2, 56 to 48 bits; the input is `C || D` (R157). -/
def pc2Table : List Nat :=
  [13, 16, 10, 23, 0, 4,
   2, 27, 14, 5, 20, 9,
   22, 18, 11, 3, 25, 7,
   15, 6, 26, 19, 12, 1,
   40, 51, 30, 36, 46, 54,
   29, 39, 50, 44, 32, 47,
   43, 48, 38, 55, 33, 52,
   45, 41, 49, 35, 28, 31]

end Sys2Proof.Machine
end

