-- ==== Sys2Proof/Machine/DesKey.lean ====
section
/-! DEFINITION. The DES key-schedule expander (spec file 43). -/

namespace Sys2Proof.Machine

/-- The sixteen 48-bit subkeys of one DES instance (R41). -/
abbrev DesSchedule := Vector (BitVec 48) 16

/-- The schedule whose entries are all zero: what the store holds where no instance uses it (R41). -/
def zeroSchedule : DesSchedule := Vector.replicate 16 0#48

/-- `SHIFTS` (R190). -/
def shifts : List Nat := [1, 1, 2, 2, 2, 2, 2, 2, 1, 2, 2, 2, 2, 2, 2, 1]

/-- `rol28` (R10): the rotation is within the 28 bits of one half. R10 defines it for `n` 1 and 2, the entries of `SHIFTS`. For
another `n`, DESIGN CHOICE (log entry 10): the same formula, a rotation up to 28, and above 28 `v` unchanged. -/
def rol28 (v : BitVec 28) (n : Nat) : BitVec 28 := (v <<< n) ||| (v >>> (28 - n))

/-- The loop of `DesDerive` (R191): the halves are rotated in place, so the rotations accumulate. -/
def desSubkeys : List Nat → BitVec 28 → BitVec 28 → List (BitVec 48)
  | [], _, _ => []
  | n :: ns, c, d =>
    permute pc2Table 48 (rol28 c n ++ rol28 d n) :: desSubkeys ns (rol28 c n) (rol28 d n)

/-- One subkey for each entry of the rotation schedule. -/
theorem desSubkeys_length (ns : List Nat) (c d : BitVec 28) : (desSubkeys ns c d).length = ns.length := by
  induction ns generalizing c d with
  | nil => rfl
  | cons n ns ih => simp [desSubkeys, ih]

/-- The permuted key of `DesDerive`, 56 bits (R191). -/
def permutedKey (kc : BitVec 64) : BitVec 56 := permute pc1Table 56 kc

/-- The left half `C` of the permuted key, before any rotation (R191). -/
def leftHalf (kc : BitVec 64) : BitVec 28 := (permutedKey kc).extractLsb' 28 28

/-- The right half `D` of the permuted key, before any rotation (R191). -/
def rightHalf (kc : BitVec 64) : BitVec 28 := (permutedKey kc).extractLsb' 0 28

/-- `DesDerive` (R191): the sixteen subkeys of a 64-bit container. No parity is computed or checked
(R193). -/
def desDerive (kc : BitVec 64) : DesSchedule :=
  ⟨(desSubkeys shifts (leftHalf kc) (rightHalf kc)).toArray, by
    simp [desSubkeys_length, shifts]⟩

/-- `PACK56` (R195): where the 56 loaded bits sit in the container. The default is zero extension; the
other two are the readings D5 names, taken by a core whose parameter says so. DEDUCED from D5 and V12 (log entry 9). -/
def pack56 (p : Pack56) (k : BitVec 56) : BitVec 64 :=
  match p with
  | .zeroExtend => k.setWidth 64
  | .leftAligned => k.setWidth 64 <<< 8
  | .parityExpand =>
    (List.range 8).foldl
      (fun acc j => (acc <<< 8) ||| ((k.extractLsb' (49 - 7 * j) 7).setWidth 64 <<< 1)) 0#64

end Sys2Proof.Machine
end

