-- ==== Sys2Proof/Machine/State.lean ====
section
/-! DEFINITION. The state of the core (R20 and spec file 10), the accesses its host can make (R30 to R32), the
reasons a step could stop, and the state after reset (R50). The constant ROMs of R22 to R24 are definitions
of `Permutation`, `Sbox`, `DesKey` and `AesField`: nothing writes them. -/

namespace Sys2Proof.Machine

/-- Which cipher instance the key slot holds (R27, R40). Six values: 6 and 7 never occur (S5). DEDUCED (log entry 7). -/
inductive Alg where
  /-- No instance exists. -/
  | none
  /-- DES. -/
  | des
  /-- Triple-DES. -/
  | tdes
  /-- AES with a 128-bit key. -/
  | aes128
  /-- AES with a 192-bit key. -/
  | aes192
  /-- AES with a 256-bit key. -/
  | aes256
deriving DecidableEq, Repr

/-- The value of `STATUS.ERR`: how the most recent command ended (R340). Codes 6 to 15 are never written
(S4). DEDUCED (log entry 7). -/
inductive ErrCode where
  /-- Code 0: the command succeeded. -/
  | ok
  /-- Code 1, by `KEYLOAD.DES`, `KEYLOAD.TDES`, `KEYLOAD.AES` (R341). -/
  | invalidKeySize
  /-- Code 2, by `ENC`, `DEC`, `CTRX`, `STRE`, `STRD` (R342). -/
  | noKey
  /-- Code 3, by a write of `CMD` (R343). -/
  | illegalCommand
  /-- Code 4, by `STRE`, `STRD` (R344). -/
  | bufferOverflow
  /-- Code 5, by `STRD` (R346). -/
  | badOperand
deriving DecidableEq, Repr

/-- What a byte buffer has been given since reset: (address, byte) pairs, addresses strictly rising. An
address not listed holds no written byte (log entry 2). -/
abbrev Memory := List Host.Cell

/-- The accesses a host can make, and no others (R32). A register value travels in a container as wide as
the widest register, and the low bits of the register's width are the value (log entry 4). -/
inductive HostAction where
  /-- `HostReadReg(n)` (R30). -/
  | readReg (n : Nat)
  /-- `HostWriteReg(n, v)` (R30). With `n` = 0 it runs a command (R26). -/
  | writeReg (n : Nat) (v : HostValue)
  /-- `HostReadIBUF(a)` (R31). -/
  | readIbuf (a : Nat)
  /-- `HostWriteIBUF(a, b)` (R31). -/
  | writeIbuf (a : Nat) (b : Byte)
  /-- `HostReadOBUF(a)` (R31). -/
  | readObuf (a : Nat)
  /-- `HostReset` (R32, R380). -/
  | reset
deriving DecidableEq, Repr

/-- What the most recent host access returned (R30, R31). The model's own, not the spec's. -/
inductive HostReply where
  /-- It was a write or a reset, or there has been none. -/
  | nothing
  /-- The value of a register, widened with zeros to the container. -/
  | register (v : HostValue)
  /-- A byte of a buffer. -/
  | byte (b : Byte)
deriving DecidableEq, Repr

/-- The whole state of the core (R20), and after it the model's own fields. -/
structure State where
  /-- Register 0, `CMD`: the last word written (R26). -/
  cmd : CommandWord
  /-- `STATUS.ERR` (R27). -/
  err : ErrCode
  /-- `STATUS.ELOG`, the sticky error log: bit `k-1` here is `STATUS` bit `8+k-1` (R27). -/
  elog : BitVec 5
  /-- Register 2, `KEYIN` (R28). -/
  keyin : BitVec 256
  /-- Register 3, `DIN` (R29). -/
  din : Block
  /-- Register 4, `DOUT` (R29). -/
  dout : Block
  /-- Register 5, `NONCE` (R34). -/
  nonce : Block
  /-- Register 6, `IDX` (R34). -/
  idx : BitVec 64
  /-- Register 7, `LEN` (R35). -/
  len : BitVec 32
  /-- Register 8, `REM` (R35). -/
  rem : BitVec 8
  /-- Register 9, `PAD` (R35). -/
  pad : BitVec 8
  /-- Register 10, `OLEN` (R35). -/
  olen : BitVec 32
  /-- `ALG`, visible as `STATUS[6:4]` (R40). -/
  alg : Alg
  /-- `DK[j][r]`, the DES subkey store (R41). -/
  dk : Vector DesSchedule 3
  /-- `RKA[k]`, the AES round-key array (R42). -/
  rka : RoundKeys
  /-- `IBUF` (R44). -/
  ibuf : Memory
  /-- `OBUF` (R44). -/
  obuf : Memory
  /-- The model's own: the parameters of R8, which nothing changes (log entry 1). -/
  cfg : Config
  /-- The model's own: how many resets there have been, which selects the free values of S1 (log entry 2). -/
  epoch : Nat
  /-- The model's own: the host accesses still to come, the next one first (log entry 3). -/
  hostQueue : List HostAction
  /-- The model's own: what the most recent access returned (log entry 4). -/
  hostReply : HostReply
deriving DecidableEq, Repr

/-- Faults. There is none: nothing in the core is stuck, no input stops it for good (spec file 93, after
table S), and every error is a state the host reads in `STATUS` (R350). DEDUCED (log entry 11). -/
inductive Fault
deriving DecidableEq, Repr

/-- Refusals. -/
inductive Refusal where
  /-- Raised by an arm of `exec` whose instruction has no meaning yet; no arm raises it. Safe: the machine
  stops where the hardware goes on. -/
  | notModelled (mnemonic : String)
deriving DecidableEq, Repr

/-- The DES subkey store with every entry zero (R41). -/
def zeroDk : Vector DesSchedule 3 := Vector.replicate 3 zeroSchedule

/-- Every piece of state at its reset value (R50), with the model's own fields given. Both buffers hold
nothing written: their contents are unspecified (R50, S1). -/
def resetState (cfg : Config) (epoch : Nat) (queue : List HostAction) : State where
  cmd := 0#16
  err := .ok
  elog := 0#5
  keyin := 0#256
  din := 0#128
  dout := 0#128
  nonce := 0#128
  idx := 0#64
  len := 0#32
  rem := 0#8
  pad := 0#8
  olen := 0#32
  alg := .none
  dk := zeroDk
  rka := zeroRoundKeys
  ibuf := []
  obuf := []
  cfg := cfg
  epoch := epoch
  hostQueue := queue
  hostReply := .nothing

/-- The machine right after power-up, which is the same event as reset (R50, R380). No host access is
waiting: a program comes from outside (log entry 3). -/
def State.reset : State := resetState Config.vectors 0 []

end Sys2Proof.Machine
end

