-- ==== Sys2Proof/Machine/Flags.lean ====
section
/-! DEFINITION. The status bits: the codes of `STATUS.ERR` and `STATUS.ALG`, the bits of `STATUS.ELOG`, and the
register `STATUS` as the host reads it (R27, R36, R340). The core has no other flag. -/

namespace Sys2Proof.Machine

/-- The code of an error (R340). -/
def ErrCode.code : ErrCode → BitVec 4
  | .ok => 0#4
  | .invalidKeySize => 1#4
  | .noKey => 2#4
  | .illegalCommand => 3#4
  | .bufferOverflow => 4#4
  | .badOperand => 5#4

/-- The code of `ALG` (R27). -/
def Alg.code : Alg → BitVec 3
  | .none => 0#3
  | .des => 1#3
  | .tdes => 2#3
  | .aes128 => 3#3
  | .aes192 => 4#3
  | .aes256 => 5#3

/-- The bit an error with code `k` sets in `ELOG`: `1 << (k-1)` (R350); none for a success. -/
def ErrCode.logBit (e : ErrCode) : BitVec 5 :=
  if e = .ok then 0#5 else 1#5 <<< (e.code.toNat - 1)

/-- `STATUS` (R27): bits 31:13 reserved and 0, `ELOG` in 12:8, `BUSY` hardwired 0 in bit 7 (R393), `ALG` in 6:4,
`ERR` in 3:0. -/
def State.status (s : State) : BitVec 32 :=
  0#19 ++ s.elog ++ 0#1 ++ s.alg.code ++ s.err.code

end Sys2Proof.Machine
end

