-- ==== Sys2Proof/Machine/Des.lean ====
section
/-! DEFINITION. The DES Feistel round pipeline, the DES block transform (spec file 44) and Triple-DES
(spec file 45). -/

namespace Sys2Proof.Machine

/-- `Feistel` (R211): expansion, XOR with the subkey, the S-box array, the Feistel permutation. -/
def feistel (h : BitVec 32) (k : BitVec 48) : BitVec 32 :=
  permute feistelPTable 32 (substitute (permute expansionTable 48 h ^^^ k))

/-- One Feistel round on the pair `(L, R)` (R210, R212). -/
def desRound (lr : BitVec 32 × BitVec 32) (k : BitVec 48) : BitVec 32 × BitVec 32 :=
  (lr.2, lr.1 ^^^ feistel lr.2 k)

/-- The rounds of R212 and R213, one for each subkey of the list, in its order. -/
def desRounds (ks : List (BitVec 48)) (lr : BitVec 32 × BitVec 32) : BitVec 32 × BitVec 32 :=
  ks.foldl desRound lr

/-- The halves a block transform starts from: the initial permutation, split (R212). -/
def desSplit (block : BitVec 64) : BitVec 32 × BitVec 32 :=
  let t := permute ipTable 64 block
  (t.extractLsb' 32 32, t.extractLsb' 0 32)

/-- The end of a block transform: the halves swapped, then the final permutation (R212). -/
def desJoin (lr : BitVec 32 × BitVec 32) : BitVec 64 := permute fpTable 64 (lr.2 ++ lr.1)

/-- The block transform with its subkeys in the order given. -/
def desTransform (ks : List (BitVec 48)) (block : BitVec 64) : BitVec 64 :=
  desJoin (desRounds ks (desSplit block))

/-- `DesEncrypt` (R212): the subkeys in forward order. -/
def desEncrypt (block : BitVec 64) (sub : DesSchedule) : BitVec 64 := desTransform sub.toList block

/-- `DesDecrypt` (R213): the same structure with the subkeys in reverse order. -/
def desDecrypt (block : BitVec 64) (sub : DesSchedule) : BitVec 64 :=
  desTransform sub.toList.reverse block

/-- `TdesEncrypt` (R232). -/
def tdesEncrypt (block : BitVec 64) (s1 s2 s3 : DesSchedule) : BitVec 64 :=
  desEncrypt (desDecrypt (desEncrypt block s1) s2) s3

/-- `TdesDecrypt` (R233). -/
def tdesDecrypt (block : BitVec 64) (s1 s2 s3 : DesSchedule) : BitVec 64 :=
  desDecrypt (desEncrypt (desDecrypt block s3) s2) s1

end Sys2Proof.Machine
end

