-- ==== Sys2Proof/Machine/Operands.lean ====
section
/-! DEFINITION. The operand forms of the commands: the key digits of `KEYIN` (R28, R230), the cipher instance of
the key slot (R124, R125), the byte order of blocks (R65), the counter block (R301), the lengths of a
stream (R307) and the padded input (R309). -/

namespace Sys2Proof.Machine

/-! ### Key material -/

/-- Key byte `j` of `KEYIN`, bits `255-8j : 248-8j`, for `j` in 0..31 (R28). Above them, DESIGN CHOICE (log entry 10): byte 31. -/
def keyByte (keyin : BitVec 256) (j : Nat) : Byte := keyin.extractLsb' (248 - 8 * j) 8

/-- The 56-bit key `j`: bits `255-56j : 200-56j`, key bytes `7j .. 7j+6`, for `j` in
0..2 (R121, R122, R230). Above them, DESIGN CHOICE (log entry 10): bits `87:32` for 3, bits `55:0` from 4 on. -/
def desKeyDigits (keyin : BitVec 256) (j : Nat) : BitVec 56 := keyin.extractLsb' (200 - 56 * j) 56

/-- The schedule of the 56-bit key `j`, through the core's `PACK56` (R121, R195). For a `j` above 2, DESIGN CHOICE (log entry 10):
that of the bits `desKeyDigits` gives. -/
def loadedSchedule (s : State) (j : Nat) : DesSchedule :=
  desDerive (pack56 s.cfg.pack (desKeyDigits s.keyin j))

/-- `Nk` of a recognised AES key length in hexadecimal digits (R123, R129). -/
def aesKeyWords (nlen : Nat) : Option Nat :=
  match nlen with
  | 32 => some 4
  | 48 => some 6
  | 64 => some 8
  | _ => none

/-- The instance an AES key of `nk` words builds, `nk` 4, 6 or 8 (R123). For another `nk`, DESIGN CHOICE (log entry 10):
AES256. -/
def aesAlg (nk : Nat) : Alg := if nk = 4 then .aes128 else if nk = 6 then .aes192 else .aes256

/-! ### Bytes and blocks -/

/-- The bytes of a block, first byte first, as a 128-bit value: `be64` and `be128` (R11), by the length of
the list, 8 or 16. For another length, DESIGN CHOICE (log entry 10): the same sum, of which the low 128 bits stay. -/
def beValue (bytes : List Byte) : Block :=
  bytes.foldl (fun acc b => (acc <<< 8) ||| b.setWidth 128) 0#128

/-- The `n` low bytes of a value, the most significant first: `bytes64` and `bytes128` (R11), `n` 8 or 16. For another
`n`, DESIGN CHOICE (log entry 10): the same, with zero bytes above the value's sixteen. -/
def beBytes (n : Nat) (v : Block) : List Byte :=
  (List.range n).map fun j => v.extractLsb' (8 * (n - 1 - j)) 8

/-- The AES state of a 128-bit block: byte `j` is bits `127-8j : 120-8j` (R29, R270). -/
def toAesBlock (x : Block) : AesBlock := Vector.ofFn fun j : Fin 16 => x.extractLsb' (120 - 8 * j.val) 8

/-- The 128-bit block of an AES state, `be128` (R11). -/
def ofAesBlock (b : AesBlock) : Block := beValue b.toList

/-! ### The cipher instance -/

/-- A cipher instance: what the key slot holds when `ALG` is not NONE (R14, R40). -/
inductive Cipher where
  /-- A DES instance and its schedule `DK[0]`. -/
  | des (sub : DesSchedule)
  /-- A Triple-DES instance and the schedules of K1, K2, K3. -/
  | tdes (s1 s2 s3 : DesSchedule)
  /-- An AES instance, its round-key array and its number of rounds. -/
  | aes (rk : RoundKeys) (nr : Nat)
deriving DecidableEq, Repr

/-- The instance the key slot holds, none when `ALG` is NONE (R124). -/
def State.cipher (s : State) : Option Cipher :=
  match s.alg with
  | .none => Option.none
  | .des => some (.des s.dk[0])
  | .tdes => some (.tdes s.dk[0] s.dk[1] s.dk[2])
  | .aes128 => some (.aes s.rka 10)
  | .aes192 => some (.aes s.rka 12)
  | .aes256 => some (.aes s.rka 14)

/-- `W`, the block width of an instance in bits (R300). -/
def Cipher.width : Cipher → Nat
  | .des _ => 64
  | .tdes _ _ _ => 64
  | .aes _ _ => 128

/-- `B`, the block size of an instance in bytes (R300). -/
def Cipher.blockBytes (c : Cipher) : Nat := c.width / 8

/-- The low `W` bits of a 128-bit register, the rest zero: what a command with this instance reads of `DIN`
and `NONCE`, and the shape of what it writes to `DOUT` (R29, R34). -/
def Cipher.narrow (c : Cipher) (x : Block) : Block := (x.setWidth c.width).setWidth 128

/-- `BlockEncrypt` (R124), on the block in the low `W` bits, widened with zeros. -/
def Cipher.encrypt (c : Cipher) (x : Block) : Block :=
  match c with
  | .des sub => (desEncrypt (x.setWidth 64) sub).setWidth 128
  | .tdes s1 s2 s3 => (tdesEncrypt (x.setWidth 64) s1 s2 s3).setWidth 128
  | .aes rk nr => ofAesBlock (aesEncrypt (toAesBlock x) rk nr)

/-- `BlockDecrypt` (R125), same shape. -/
def Cipher.decrypt (c : Cipher) (x : Block) : Block :=
  match c with
  | .des sub => (desDecrypt (x.setWidth 64) sub).setWidth 128
  | .tdes s1 s2 s3 => (tdesDecrypt (x.setWidth 64) s1 s2 s3).setWidth 128
  | .aes rk nr => ofAesBlock (aesDecrypt (toAesBlock x) rk nr)

/-! ### The keystream -/

/-- `Keystream(i)` (R301): the nonce and the index are combined by XOR over the block width, and the cipher
is always used in the encrypt direction. -/
def Cipher.keystream (c : Cipher) (nonce : Block) (i : BitVec 64) : Block :=
  c.encrypt (c.narrow nonce ^^^ i.setWidth 128)

/-- `StreamBlock(x, i)` (R303), on the block in the low `W` bits. -/
def Cipher.streamBlock (c : Cipher) (nonce : Block) (x : Block) (i : BitVec 64) : Block :=
  c.narrow x ^^^ c.keystream nonce i

/-! ### Stream lengths -/

/-- `r`, the remainder of a length (R307). -/
def streamRem (len blockBytes : Nat) : Nat := len % blockBytes

/-- `p`, the number of zero bytes added (R307), for a block of 8 or 16 bytes (R300). Here and in the two numbers after it, for
another block size, DESIGN CHOICE (log entry 10): the same formulas, which for 0 give no padding and no block. -/
def streamPad (len blockBytes : Nat) : Nat := (blockBytes - streamRem len blockBytes) % blockBytes

/-- `NP`, the padded length (R307), a number that does not wrap (R312). -/
def paddedLen (len blockBytes : Nat) : Nat := len + streamPad len blockBytes

/-- `NB`, the number of blocks (R307). -/
def blockCount (len blockBytes : Nat) : Nat := paddedLen len blockBytes / blockBytes

end Sys2Proof.Machine
end

