-- ==== Sys2Proof/Machine/Ops.lean ====
section
/-! DEFINITION. The named operations over memory, the key slot and the registers, and the one shared operation
by which a command ends in an error (R350). There is no return from one: no handler runs, and the next command
overwrites `ERR` (R353). -/

namespace Sys2Proof.Machine

/-- The outcome of a command or of a step. -/
abbrev Result := Host.Outcome State Fault Refusal

/-! ### Byte buffers -/

/-- What the buffer holds at `a`, if anything has written it since reset. -/
def Memory.written (m : Memory) (a : Nat) : Option Byte := List.lookup a m

/-- Write one byte, keeping the addresses strictly rising. -/
def Memory.store : Memory → Nat → Byte → Memory
  | [], a, b => [(a, b)]
  | c :: m, a, b =>
    if a < c.1 then (a, b) :: c :: m
    else if a = c.1 then (a, b) :: m
    else c :: Memory.store m a b

/-- Write a byte sequence from `a` up, lowest address first: `MemWrite` (R11, R64). -/
def Memory.storeBytes : Memory → Nat → List Byte → Memory
  | m, _, [] => m
  | m, a, b :: bs => Memory.storeBytes (m.store a b) (a + 1) bs

/-- The canonical form: addresses strictly rising, so that no address is listed twice. An unlisted address
holds no written byte and no entry says that, so no entry equals what an unlisted address reads as. -/
abbrev Memory.wf (m : Memory) : Prop := m.Pairwise fun c d => c.1 < d.1

/-- Every listed address exists: it is below `n`. -/
abbrev Memory.below (n : Nat) (m : Memory) : Prop := ∀ c ∈ m, c.1 < n

/-- The written bytes of a buffer. -/
def State.memory (s : State) : Space → Memory
  | .ibuf => s.ibuf
  | .obuf => s.obuf

/-- One byte of a buffer, at an address that exists: the byte last written, or the free value where nothing
has written since reset (R50, S1). At an address that does not exist, DESIGN CHOICE (log entry 10): the same. The host's reads
of one give 0 (`readHostBuf`), and no command makes one (R63). -/
def State.bufByte (s : State) (space : Space) (a : Nat) : Byte :=
  ((s.memory space).written a).getD (Config.unwrittenByte space s.epoch a)

/-- `MemRead(space, addr, n)` (R63), used with `addr + n` at most `BUFBYTES`. Past it, as `State.bufByte` (log entry 10). -/
def State.memRead (s : State) (space : Space) (addr n : Nat) : List Byte :=
  (List.range n).map fun j => s.bufByte space (addr + j)

/-! ### How a command ends -/

/-- The state an error leaves (R350): `ERR` takes the code, `ELOG` keeps its bits and takes the error's, and
nothing else changes. `raise` has an error's code, 1 to 5: for code 0, DESIGN CHOICE (log entry 10),
`ERR` takes it and no bit is set. -/
def State.logError (e : ErrCode) (s : State) : State := { s with err := e, elog := s.elog ||| e.logBit }

/-- `raise E` (R350). This is the whole of taking an exception: no state is saved, no mode changes and control
goes nowhere. -/
def raise (e : ErrCode) (s : State) : Result := .next (s.logError e)

/-- The state a success leaves: `ERR` becomes 0 and `ELOG` is not changed (R351). -/
def State.clearErr (s : State) : State := { s with err := .ok }

/-- The end of a command that succeeds (R120, R351). -/
def succeed (s : State) : Result := .next s.clearErr

/-! ### The key slot -/

/-- The key slot of a fresh instance: every entry the instance does not use holds zero (R41, R42). -/
def State.loadKeySlot (alg : Alg) (dk : Vector DesSchedule 3) (rka : RoundKeys) (s : State) : State :=
  { s with alg := alg, dk := dk, rka := rka }

/-- Run a command on the instance of the key slot, or raise `NoKey` when there is none (R126, R342). -/
def withCipher (s : State) (run : Cipher → Result) : Result :=
  match s.cipher with
  | none => raise .noKey s
  | some c => run c

/-- The end of `ENC`, `DEC` and `CTRX`: `DOUT <- v` and success. -/
def writeDout (v : Block) (s : State) : Result := succeed { s with dout := v }

/-! ### The stream body -/

/-- `InByte(a)` (R309): the input where `a` is below `LEN`, zero in the padding. -/
def State.inByte (s : State) (a : Nat) : Byte :=
  if a < s.len.toNat then s.bufByte .ibuf a else 0#8

/-- Input block `i`, its bytes in order (R309). -/
def State.inBlock (s : State) (blockBytes i : Nat) : List Byte :=
  (List.range blockBytes).map fun j => s.inByte (blockBytes * i + j)

/-- The output bytes of block `i` (R310): the big-endian value of the input XOR the keystream. No stream has a block `2^64` or
above. There, DESIGN CHOICE (log entry 10): the index is `i` modulo `2^64`. -/
def State.outBlock (s : State) (c : Cipher) (i : Nat) : List Byte :=
  beBytes c.blockBytes
    (c.streamBlock s.nonce (beValue (s.inBlock c.blockBytes i)) (BitVec.ofNat 64 i))

/-- The buffer after one block: the block's own slot is written (R310, R315). -/
def State.storeBlock (s : State) (c : Cipher) (m : Memory) (i : Nat) : Memory :=
  m.storeBytes (c.blockBytes * i) (s.outBlock c i)

/-- `OBUF` after the blocks of `order` have been processed, in that order. -/
def State.streamBlocks (s : State) (c : Cipher) (order : List Nat) : Memory :=
  order.foldl (s.storeBlock c) s.obuf

/-- The blocks of one lane: those with `i mod NLANES` its number (R315). For a lane that does not exist there are none. `NLANES` is 1
or more (R8). For 0, DESIGN CHOICE (log entry 10): the block with the lane's own number, and no block in `laneOrder`. -/
def laneBlocks (lanes nb lane : Nat) : List Nat := (List.range nb).filter fun i => i % lanes == lane

/-- A processing order of the blocks: lane after lane, each in rising order. Every other order gives the same
`OBUF` (R316). DESIGN CHOICE (log entry 6). -/
def laneOrder (lanes nb : Nat) : List Nat := (List.range lanes).flatMap (laneBlocks lanes nb)

/-- `OBUF` after a whole stream command (R310, R311). -/
def State.streamOutput (s : State) (c : Cipher) : Memory :=
  s.streamBlocks c (laneOrder s.cfg.lanes (blockCount s.len.toNat c.blockBytes))

/-- The padded length of the input in `IBUF` for an instance (R307). -/
def State.padded (s : State) (c : Cipher) : Nat := paddedLen s.len.toNat c.blockBytes

end Sys2Proof.Machine
end

