-- ==== Sys2Proof/Machine/BlockCommands.lean ====
section
/-! DEFINITION. The commands on one block: `ENC`, `DEC` (spec file 40) and `CTRX` (spec file 48). -/

namespace Sys2Proof.Machine

/-- `ENC` (R126). -/
def execEnc (s : State) : Result := withCipher s fun c => writeDout (c.encrypt s.din) s

/-- `DEC` (R127). -/
def execDec (s : State) : Result := withCipher s fun c => writeDout (c.decrypt s.din) s

/-- `CTRX` (R305). -/
def execCtrx (s : State) : Result :=
  withCipher s fun c => writeDout (c.streamBlock s.nonce s.din s.idx) s

end Sys2Proof.Machine
end

