-- ==== Sys2Proof/Machine/KeySlot.lean ====
section
/-! DEFINITION. The commands that build and destroy a cipher instance: `KEYLOAD.DES`, `KEYLOAD.TDES`,
`KEYLOAD.AES` and `KEYCLR` (spec file 40). -/

namespace Sys2Proof.Machine

/-- `KEYLOAD.DES nlen` (R121). -/
def execKeyloadDes (nlen : Nat) (s : State) : Result :=
  if nlen = 14 then
    succeed (s.loadKeySlot .des #v[loadedSchedule s 0, zeroSchedule, zeroSchedule] zeroRoundKeys)
  else raise .invalidKeySize s

/-- `KEYLOAD.TDES nlen` (R122): the thirds of the key go to K1, K2, K3 in order (R230). -/
def execKeyloadTdes (nlen : Nat) (s : State) : Result :=
  if nlen = 42 then
    succeed (s.loadKeySlot .tdes #v[loadedSchedule s 0, loadedSchedule s 1, loadedSchedule s 2] zeroRoundKeys)
  else raise .invalidKeySize s

/-- `KEYLOAD.AES nlen` (R123). -/
def execKeyloadAes (nlen : Nat) (s : State) : Result :=
  match aesKeyWords nlen with
  | some nk => succeed (s.loadKeySlot (aesAlg nk) zeroDk (aesDeriveRka nk (keyByte s.keyin)))
  | none => raise .invalidKeySize s

/-- `KEYCLR` (R128): no instance, and the key material and `DOUT` zero. -/
def execKeyclr (s : State) : Result :=
  succeed { s.loadKeySlot .none zeroDk zeroRoundKeys with keyin := 0#256, dout := 0#128 }

end Sys2Proof.Machine
end

