-- ==== Sys2Proof/Machine/Stream.lean ====
section
/-! DEFINITION. The whole-buffer commands `STRE` and `STRD` (spec file 48). The checks stand in the order of the
rules: the first that fails decides the error (R120, R348). -/

namespace Sys2Proof.Machine

/-- `STRE` (R310). -/
def execStre (s : State) : Result :=
  withCipher s fun c =>
    if s.cfg.bufBytes < s.padded c then raise .bufferOverflow s
    else succeed
      { s with
        obuf := s.streamOutput c
        rem := BitVec.ofNat 8 (streamRem s.len.toNat c.blockBytes)
        pad := BitVec.ofNat 8 (streamPad s.len.toNat c.blockBytes)
        olen := BitVec.ofNat 32 (s.padded c) }

/-- `pd`, the number of output bytes `STRD` cuts off (R311). `STRD` computes it only for a `rem` below the block size; for a
larger one, DESIGN CHOICE (log entry 10): 0. -/
def cutBytes (rem blockBytes : Nat) : Nat := (blockBytes - rem) % blockBytes

/-- `STRD` (R311). -/
def execStrd (s : State) : Result :=
  withCipher s fun c =>
    if c.blockBytes ≤ s.rem.toNat then raise .badOperand s
    else if s.padded c < cutBytes s.rem.toNat c.blockBytes then raise .badOperand s
    else if s.cfg.bufBytes < s.padded c then raise .bufferOverflow s
    else succeed
      { s with
        obuf := s.streamOutput c
        pad := BitVec.ofNat 8 (cutBytes s.rem.toNat c.blockBytes)
        olen := BitVec.ofNat 32 (s.padded c - cutBytes s.rem.toNat c.blockBytes) }

end Sys2Proof.Machine
end

