-- ==== Sys2Proof/Machine/Dispatch.lean ====
section
/-! DEFINITION. One arm for each command of the opcode map (R93). The state is the one after `CMD` has been
stored (R120). -/

namespace Sys2Proof.Machine

/-- Run a decoded command as one atomic step (R120). -/
def exec (i : Instr) (s : State) : Host.Outcome State Fault Refusal :=
  match i with
  | .keyloadDes nlen => Sys2Proof.Machine.execKeyloadDes nlen s
  | .keyloadTdes nlen => Sys2Proof.Machine.execKeyloadTdes nlen s
  | .keyloadAes nlen => Sys2Proof.Machine.execKeyloadAes nlen s
  | .keyclr => Sys2Proof.Machine.execKeyclr s
  | .enc => Sys2Proof.Machine.execEnc s
  | .dec => Sys2Proof.Machine.execDec s
  | .ctrx => Sys2Proof.Machine.execCtrx s
  | .stre => Sys2Proof.Machine.execStre s
  | .strd => Sys2Proof.Machine.execStrd s

end Sys2Proof.Machine
end

