-- ==== Sys2Proof/Machine/HostPort.lean ====
section
/-! DEFINITION. What each host access does (R25, R26, R30 to R32), and the fetch: a command is the word the host
writes to `CMD` (R21, R26). -/

namespace Sys2Proof.Machine

/-- The eleven registers of R25. -/
inductive HostReg where
  /-- Register 0. -/
  | cmd
  /-- Register 1. -/
  | status
  /-- Register 2. -/
  | keyin
  /-- Register 3. -/
  | din
  /-- Register 4. -/
  | dout
  /-- Register 5. -/
  | nonce
  /-- Register 6. -/
  | idx
  /-- Register 7. -/
  | len
  /-- Register 8. -/
  | rem
  /-- Register 9. -/
  | pad
  /-- Register 10. -/
  | olen
deriving DecidableEq, Repr

/-- The register with a number; numbers 11 and above do not exist (R25). -/
def hostReg : Nat → Option HostReg
  | 0 => some .cmd
  | 1 => some .status
  | 2 => some .keyin
  | 3 => some .din
  | 4 => some .dout
  | 5 => some .nonce
  | 6 => some .idx
  | 7 => some .len
  | 8 => some .rem
  | 9 => some .pad
  | 10 => some .olen
  | _ => none

/-- The value of a register, widened with zeros to the container (R30). -/
def regValue (s : State) : HostReg → HostValue
  | .cmd => s.cmd.setWidth 256
  | .status => s.status.setWidth 256
  | .keyin => s.keyin
  | .din => s.din.setWidth 256
  | .dout => s.dout.setWidth 256
  | .nonce => s.nonce.setWidth 256
  | .idx => s.idx.setWidth 256
  | .len => s.len.setWidth 256
  | .rem => s.rem.setWidth 256
  | .pad => s.pad.setWidth 256
  | .olen => s.olen.setWidth 256

/-- `HostReadReg(n)` (R30): a number above 10 reads 0 (R25). -/
def readHostReg (s : State) (n : Nat) : HostValue :=
  match hostReg n with
  | some r => regValue s r
  | none => 0#256

/-- `HostWriteReg(0, w)` (R26, R120): `CMD` takes the word, and then the word is decoded and run, or raises
`IllegalCommand` (R343). -/
def writeCmd (w : CommandWord) (s : State) : Result :=
  match decodeWord w with
  | .ok i => exec i { s with cmd := w }
  | .error _ => raise .illegalCommand { s with cmd := w }

/-- `HostWriteReg(n, v)` (R30): an `RW` register stores the value, a write to an `R` register or to a number
above 10 does nothing. -/
def writeHostReg (s : State) (n : Nat) (v : HostValue) : Result :=
  match hostReg n with
  | some .cmd => writeCmd (v.setWidth 16) s
  | some .keyin => .next { s with keyin := v }
  | some .din => .next { s with din := v.setWidth 128 }
  | some .nonce => .next { s with nonce := v.setWidth 128 }
  | some .idx => .next { s with idx := v.setWidth 64 }
  | some .len => .next { s with len := v.setWidth 32 }
  | some .rem => .next { s with rem := v.setWidth 8 }
  | some .status => .next s
  | some .dout => .next s
  | some .pad => .next s
  | some .olen => .next s
  | none => .next s

/-- A host read of a buffer byte: an address at or above `BUFBYTES` reads 0 (R31). -/
def readHostBuf (s : State) (space : Space) (a : Nat) : Byte :=
  if a < s.cfg.bufBytes then s.bufByte space a else 0#8

/-- `HostWriteIBUF(a, b)` (R31): a write at or above `BUFBYTES` is ignored. -/
def writeHostIbuf (s : State) (a : Nat) (b : Byte) : State :=
  if a < s.cfg.bufBytes then { s with ibuf := s.ibuf.store a b } else s

/-- `HostReset` (R32, R380): every piece of state at its reset value. The parameters and the accesses still to
come are not the core's state; the free values are drawn afresh (log entry 2). -/
def hostReset (s : State) : State := resetState s.cfg (s.epoch + 1) s.hostQueue

/-- One host access, a single atomic step (R6, R68). -/
def hostAccess (act : HostAction) (s : State) : Result :=
  match act with
  | .readReg n => .next { s with hostReply := .register (readHostReg s n) }
  | .writeReg n v => writeHostReg s n v
  | .readIbuf a => .next { s with hostReply := .byte (readHostBuf s .ibuf a) }
  | .writeIbuf a b => .next (writeHostIbuf s a b)
  | .readObuf a => .next { s with hostReply := .byte (readHostBuf s .obuf a) }
  | .reset => .next (hostReset s)

/-- The state an access starts from: the access is taken off the queue, and nothing has been returned yet. -/
def State.takeAccess (rest : List HostAction) (s : State) : State :=
  { s with hostQueue := rest, hostReply := .nothing }

/-- The word the opcode table's numbering gives: the low 16 bits of `w`, those from `nbits` up zero. A row has 16
bits (R90). For another number, DESIGN CHOICE (log entry 10): as `decodeTableWord`. -/
def tableWord (nbits w : Nat) : HostValue := (BitVec.ofNat 16 (w % 2 ^ nbits)).setWidth 256

end Sys2Proof.Machine
end

