-- ==== Sys2Proof/Machine/Step.lean ====
section
/-! DEFINITION. One step: the next host access, start to end (R6, R70). There is no program counter and no fetch
(R21): the order of commands is the order in which the host writes `CMD`. -/

namespace Sys2Proof.Machine

/-- One step. With no access waiting the core stays as it is: it is a slave and never starts an access
itself (R60), and it has no state that changes by itself (R366). -/
def step (s : State) : Host.Outcome State Fault Refusal :=
  match s.hostQueue with
  | [] => .next s
  | act :: rest => hostAccess act (s.takeAccess rest)

/-- The state whose next step is a host write of the table's word to `CMD` (log entry 3). -/
def State.withFetchWord (s : State) (nbits w : Nat) : State :=
  { s with hostQueue := .writeReg 0 (tableWord nbits w) :: s.hostQueue }

end Sys2Proof.Machine
end

