-- ==== Sys2Proof/Machine/HostSide.lean ====
section
/-! DEFINITION. The host's side of the interface, outside the core, where a rule of the spec writes it down: the
decoding of a key string (R33), the pseudo-commands (R97), the listing of a command (R96), and the accesses with
which a host uses the stream commands (R314, R390). No step calls anything here. -/

namespace Sys2Proof.Machine

/-! ### Key strings (R33) -/

/-- The 4-bit value of a key character, both letter cases accepted; any other character is not a key's. -/
def hexDigit (c : Char) : Option (BitVec 4) :=
  if '0' ≤ c ∧ c ≤ '9' then some (BitVec.ofNat 4 (c.toNat - '0'.toNat))
  else if 'A' ≤ c ∧ c ≤ 'F' then some (BitVec.ofNat 4 (c.toNat - 'A'.toNat + 10))
  else if 'a' ≤ c ∧ c ≤ 'f' then some (BitVec.ofNat 4 (c.toNat - 'a'.toNat + 10))
  else none

/-- The digits of a key string, none when one of its characters is no digit (R33). -/
def hexDigits : List Char → Option (List (BitVec 4))
  | [] => some []
  | c :: cs =>
    match hexDigit c, hexDigits cs with
    | some d, some ds => some (d :: ds)
    | _, _ => none

/-- `KEYIN` with digit `n` at bits `255-4n : 252-4n` (R28); digits past the 64th have no place in it. -/
def stagedKey (digits : List (BitVec 4)) : BitVec 256 :=
  (List.range 64).foldl (fun acc n => (acc <<< 4) ||| ((digits[n]?).getD 0#4).setWidth 256) 0#256

/-- The value of `KEYIN` and the `nlen` of a key string (R33): an odd number of digits is passed with its true
length. A string of more than 255 digits has no `nlen` (R91). DESIGN CHOICE (log entry 5). -/
def stageKeyString (cs : List Char) : Option (BitVec 256 × Nat) :=
  match hexDigits cs with
  | some ds => if ds.length < 256 then some (stagedKey ds, ds.length) else none
  | none => none

/-! ### Pseudo-commands and listings (R96, R97) -/

/-- `KLDES` (R97). -/
def klDes : Instr := .keyloadDes 14

/-- `KLTDES` (R97). -/
def klTdes : Instr := .keyloadTdes 42

/-- `KLAES128` (R97). -/
def klAes128 : Instr := .keyloadAes 32

/-- `KLAES192` (R97). -/
def klAes192 : Instr := .keyloadAes 48

/-- `KLAES256` (R97). -/
def klAes256 : Instr := .keyloadAes 64

/-- The listing line of a command: the mnemonic, and for a key load `nlen` in decimal (R96). For an `nlen` of 256 or more, DESIGN
CHOICE (log entry 10): the same. -/
def listing : Instr → String
  | .keyloadDes nlen => "KEYLOAD.DES " ++ toString nlen
  | .keyloadTdes nlen => "KEYLOAD.TDES " ++ toString nlen
  | .keyloadAes nlen => "KEYLOAD.AES " ++ toString nlen
  | .keyclr => "KEYCLR"
  | .enc => "ENC"
  | .dec => "DEC"
  | .ctrx => "CTRX"
  | .stre => "STRE"
  | .strd => "STRD"

/-- A command's line is the write of its word to `CMD` (R96). An ill-formed command's word is as `encodeKeyload` gives it (log
entry 10). -/
def issue (i : Instr) : HostAction := .writeReg 0 ((encode i).setWidth 256)

/-! ### The host's use of the stream commands (R314, R390) -/

/-- `WRBUF addr, bytes` (R96): `HostWriteIBUF` of consecutive bytes. -/
def writeBytesFrom : Nat → List Byte → List HostAction
  | _, [] => []
  | a, b :: bs => .writeIbuf a b :: writeBytesFrom (a + 1) bs

/-- `RDBUF addr, n` (R96): `HostReadOBUF` of `n` bytes. -/
def readBytesFrom (a n : Nat) : List HostAction := (List.range n).map fun j => .readObuf (a + j)

/-- The accesses of `EncryptFile` before it reads the result (for an input longer than a buffer, DESIGN CHOICE, log entry 10: the
same accesses, whatever the core does with them): the bytes to `IBUF`, `LEN`, `NONCE`, then `STRE`
(R314). -/
def encryptAccesses (input : List Byte) (nonce : Block) : List HostAction :=
  writeBytesFrom 0 input ++
    [.writeReg 7 (BitVec.ofNat 256 input.length), .writeReg 5 (nonce.setWidth 256), issue .stre]

/-- `REM` from the document's `paddingByteCount`: `(B - paddingByteCount) mod B` (R308, R314). For a count above the block size,
which no padding has, DESIGN CHOICE (log entry 10): 0. -/
def remOfPadding (blockBytes paddingByteCount : Nat) : Nat := (blockBytes - paddingByteCount) % blockBytes

/-- The accesses of `DecryptFile` before it reads the result (for an input longer than a buffer, as
`encryptAccesses`): the ciphertext, `LEN`, the same `NONCE`, `REM`, then `STRD` (R314). -/
def decryptAccesses (input : List Byte) (nonce : Block) (blockBytes paddingByteCount : Nat) : List HostAction :=
  writeBytesFrom 0 input ++
    [.writeReg 7 (BitVec.ofNat 256 input.length), .writeReg 5 (nonce.setWidth 256),
     .writeReg 8 (BitVec.ofNat 256 (remOfPadding blockBytes paddingByteCount)), issue .strd]

end Sys2Proof.Machine
end

