-- ==== Sys2Proof/Machine/SpecForms.lean ====
section
/-! DEFINITION. Second forms that the spec itself gives of what the machine computes: the opcode map as masks and matches
(R93), the S-box ROMs indexed by the raw chunk (R173), and the direct inverse of the AES cipher (R282). No step calls them:
claims compare the machine with them. -/

namespace Sys2Proof.Machine

/-- A row of the opcode map: a word selects it when `w AND mask = pattern` (R93). -/
structure OpcodeRow where
  /-- The row's mask. -/
  mask : CommandWord
  /-- The row's match. -/
  pattern : CommandWord
deriving DecidableEq, Repr

/-- The row of a command in the opcode map (R93). -/
def opcodeRow : Instr → OpcodeRow
  | .keyloadDes _ => ⟨0xFF00#16, 0x1000#16⟩
  | .keyloadTdes _ => ⟨0xFF00#16, 0x1100#16⟩
  | .keyloadAes _ => ⟨0xFF00#16, 0x1200#16⟩
  | .keyclr => ⟨0xFFFF#16, 0x2000#16⟩
  | .enc => ⟨0xFFFF#16, 0x3000#16⟩
  | .dec => ⟨0xFFFF#16, 0x4000#16⟩
  | .ctrx => ⟨0xFFFF#16, 0x5000#16⟩
  | .stre => ⟨0xFFFF#16, 0x6000#16⟩
  | .strd => ⟨0xFFFF#16, 0x7000#16⟩

/-- The word selects the command's row (R93). -/
def selectsRow (w : CommandWord) (i : Instr) : Bool := w &&& (opcodeRow i).mask == (opcodeRow i).pattern

/-- The nine commands a word could select, `nn` read as `nlen` (R93). -/
def commandsOf (w : CommandWord) : List Instr :=
  let nlen := w.toNat % 256
  [.keyloadDes nlen, .keyloadTdes nlen, .keyloadAes nlen, .keyclr, .enc, .dec, .ctrx, .stre, .strd]

/-- The table `SBOXD`, one row for each ROM: digit number `c` from the left is the entry for the chunk `c` (R173). -/
def sboxdRows : List (BitVec 256) :=
  [0xE04FD7142EF2BD813AA66CCB599503784F1CE882D46921B7F5CB937E3AA0560D#256,
   0xF31D84E76FB2384E9C7021DAC6095BA50DE87AB1A34FD4125B86C76C90352EF9#256,
   0xAD0790E96334F65A12D8C57EBC4B2F81D16A4D9086F93807B41F2EC35BA5E27C#256,
   0x7DD8EB35066F90A31427825CB1CA4EF9A36F9006CAB17DD8F91435EB5C27824E#256,
   0x2ECB421C74A7BD6185503FFAD309E8964B281CB7A1DE728DF69FC0596A3405E3#256,
   0xCA1FA4F2972C698506D13D4EE07B53B894E3F25C2985CF3A7B0E41A716D0B86D#256,
   0x4DB02BE7F40981DA3EC3957C52AF6816164BBDD8C1347AE7A9F5608F0E52932C#256,
   0xD12F8D486AF3B714AC9536EB500EC97272B14E1794CAE82D0F6CA9D0F335568B#256]

/-- `SBOXD[s][c]`, for `s` in 0..7 and `c` in 0..63 (R173). Outside them, DESIGN CHOICE (log entry 10): a `c` above 63 gives
digit 63 of the row, an `s` above 7 gives 0. -/
def sboxd (s c : Nat) : BitVec 4 := ((sboxdRows[s]?).getD 0#256).extractLsb' (4 * (63 - c)) 4

/-- The first step of undoing `FinalRound` and each `Round`: `InvShiftRows`, then `InvSubBytes` (R282). -/
def undoSubShift (s : AesBlock) : AesBlock := invSubBytes (invShiftRows s)

/-- The direct inverse of the AES cipher with the forward round keys only: undo `FinalRound` with the last key, then each
`Round` with its key, in falling order, then `AddRoundKey` with the first key (R282). For a number of
rounds other than 10, 12 and 14, DESIGN CHOICE (log entry 10): the same structure, with no full round for 0. -/
def directDecrypt (block : AesBlock) (rk : RoundKeys) (nr : Nat) : AesBlock :=
  addRoundKey
    ((List.range (nr - 1)).foldl
      (fun s k => undoSubShift (invMixColumns (addRoundKey s (keyAt rk (nr - (k + 1))))))
      (undoSubShift (addRoundKey block (keyAt rk nr))))
    (keyAt rk 0)

/-- The rotation of subkey `r`, `r` in 0..15: `SHIFTS[0] + ... + SHIFTS[r]` (R191). For an `r` above 15, DESIGN CHOICE (log entry
10): 28, the sum of them all. -/
def totalShift (r : Nat) : Nat := (shifts.take (r + 1)).sum

/-- `B` of an instance, from `ALG` alone (R300). With no instance, DESIGN CHOICE (log entry 10): 16. -/
def algBlockBytes (a : Alg) : Nat := if a = .des ∨ a = .tdes then 8 else 16

/-- The block a command with this `ALG` reads of a 128-bit register: the low 64 bits for DES and Triple-DES, all of it
for AES (R29). With no instance, DESIGN CHOICE (log entry 10): all of it. -/
def algNarrow (a : Alg) (x : Block) : Block := if a = .des ∨ a = .tdes then (x.setWidth 64).setWidth 128 else x

end Sys2Proof.Machine
end

