-- ==== Sys2Proof/Safety.lean ====
section
/-! DEFINITION. What a good state of the core is, in the terms the claims use: what the spec says holds of the key
slot, the buffers and the status at all times. -/

namespace Sys2Proof.Machine

/-- The number of rounds of an AES instance (R129), none for the others. -/
def Alg.aesRounds : Alg → Option Nat
  | .none => Option.none
  | .des => Option.none
  | .tdes => Option.none
  | .aes128 => some 10
  | .aes192 => some 12
  | .aes256 => some 14

/-- `rk[Nr+k] = InvMixColumns(rk[Nr-k])` for `k` in 1 .. `Nr-1`: the second half of the array is the transformed first half
(R247), which is what decryption needs of it (R282). -/
def DecryptHalfOf (rk : RoundKeys) (nr : Nat) : Prop :=
  ∀ k, 1 ≤ k → k < nr → keyAt rk (nr + k) = invMixColumns (keyAt rk (nr - k))

/-- The round-key array is that of an instance with `nr` rounds: the keys after the forward ones are those transformed
in reverse order (R247), and the entries from `2*nr` on hold zero (R42). -/
structure RoundKeysOf (rk : RoundKeys) (nr : Nat) : Prop where
  /-- The decryption half is the transformed forward half (R247). -/
  decryptHalf : DecryptHalfOf rk nr
  /-- Entries not in use hold zero (R42). -/
  unused : ∀ k, 2 * nr ≤ k → k < 28 → keyAt rk k = zeroAesBlock

/-- The key slot holds a complete instance or none (R341): entries that the current `ALG` does not use hold zero (R41,
R42), and an AES instance has both halves of its keys. -/
structure KeySlotWf (s : State) : Prop where
  /-- Without a DES or Triple-DES instance `DK[0]` is zero. -/
  dk0 : s.alg ≠ .des → s.alg ≠ .tdes → s.dk[0] = zeroSchedule
  /-- Without a Triple-DES instance `DK[1]` is zero. -/
  dk1 : s.alg ≠ .tdes → s.dk[1] = zeroSchedule
  /-- Without a Triple-DES instance `DK[2]` is zero. -/
  dk2 : s.alg ≠ .tdes → s.dk[2] = zeroSchedule
  /-- Without an AES instance every round key is zero. -/
  rkaUnused : s.alg.aesRounds = none → s.rka = zeroRoundKeys
  /-- With one, the array is that of its number of rounds. -/
  rkaUsed : ∀ nr, s.alg.aesRounds = some nr → RoundKeysOf s.rka nr

/-- The invariant of the core. -/
structure Inv (s : State) : Prop where
  /-- The key slot is complete or empty. -/
  keySlot : KeySlotWf s
  /-- `IBUF` is in canonical form. -/
  ibufWf : s.ibuf.wf
  /-- `OBUF` is in canonical form. -/
  obufWf : s.obuf.wf
  /-- Every byte written to `IBUF` has an address that exists (R31, R44). -/
  ibufBelow : s.ibuf.below s.cfg.bufBytes
  /-- Every byte written to `OBUF` has an address that exists (R44, R64). -/
  obufBelow : s.obuf.below s.cfg.bufBytes
  /-- An error that `ERR` shows stands in the log (R350). -/
  errLogged : s.elog ||| s.err.logBit = s.elog
  /-- The valid output fits the buffer (R61). -/
  olenBound : s.olen.toNat ≤ s.cfg.bufBytes
  /-- The padding is shorter than the longest block (R307, R311). -/
  padBound : s.pad.toNat < 16

end Sys2Proof.Machine
end

