-- ==== Sys2Proof/Certificates/Slice0/Obligations.lean ====
section
/-! DEFINITION. The statements for the provers. Each docstring says which rule of the spec the statement formalises, or
what it is derived from. Buffer contents are said through `State.bufByte`, the model's read of one byte. Where a statement is
about a step, the access leaves `hostQueue` and `hostReply` holds what it returned: both are the model's own fields (log
entries 3 and 4), not the spec's. -/

open Sys2Proof Sys2Proof.Machine

/-! ### The command word -/

/-- R97: the pseudo-commands and their words. -/
def Obligations.PseudoCommandWordsDecode : Prop :=
  (klDes = .keyloadDes 14 ∧ encode klDes = 0x100E#16 ∧ decodeWord 0x100E#16 = .ok klDes) ∧
  (klTdes = .keyloadTdes 42 ∧ encode klTdes = 0x112A#16 ∧ decodeWord 0x112A#16 = .ok klTdes) ∧
  (klAes128 = .keyloadAes 32 ∧ encode klAes128 = 0x1220#16 ∧ decodeWord 0x1220#16 = .ok klAes128) ∧
  (klAes192 = .keyloadAes 48 ∧ encode klAes192 = 0x1230#16 ∧ decodeWord 0x1230#16 = .ok klAes192) ∧
  (klAes256 = .keyloadAes 64 ∧ encode klAes256 = 0x1240#16 ∧ decodeWord 0x1240#16 = .ok klAes256)

/-- Derived from R90 to R93: no bit of an encoding is dropped. -/
def Obligations.DecodeEncodeRoundTrip : Prop :=
  ∀ i : Instr, i.wellFormed = true → decodeWord (encode i) = .ok i

/-- Derived from R90 to R94: a word that decodes is the encoding of what it decodes to. -/
def Obligations.EncodeDecodeRoundTrip : Prop :=
  ∀ (w : CommandWord) (i : Instr), decodeWord w = .ok i → i.wellFormed = true ∧ encode i = w

/-- Derived from R93: a word decodes to the command whose row it selects by mask and match, at most one row matches, and a
word that matches no row decodes to nothing. -/
def Obligations.DecoderFollowsTheOpcodeMap : Prop :=
  ∀ w : CommandWord,
    (∀ i ∈ commandsOf w, selectsRow w i = true → decodeWord w = .ok i) ∧
    (∀ i ∈ commandsOf w, ∀ j ∈ commandsOf w, selectsRow w i = true → selectsRow w j = true → i = j) ∧
    ((∀ i ∈ commandsOf w, selectsRow w i = false) → ∃ e, decodeWord w = .error e)

/-- Derived from R343, R94 and R350: for the words R94 lists, the word stays in `CMD`, nothing is run, and the error is
recorded. What the step adds around it: the access leaves the queue, and nothing is returned (log entries 3 and 4). -/
def Obligations.IllegalWordRunsNothing : Prop :=
  ∀ (s : State) (v : HostValue) (rest : List HostAction),
    s.hostQueue = .writeReg 0 v :: rest →
    (let w := (v.setWidth 16).toNat
     w / 4096 = 0 ∨ 8 ≤ w / 4096 ∨
     (w / 4096 = 1 ∧ (w / 256 % 4 = 3 ∨ w / 1024 % 4 ≠ 0)) ∨
     (2 ≤ w / 4096 ∧ w / 4096 ≤ 7 ∧ w % 4096 ≠ 0)) →
    step s = .next { s with
      hostQueue := rest
      hostReply := .nothing
      cmd := v.setWidth 16
      err := .illegalCommand
      elog := s.elog ||| 0b00100#5 }

/-- Derived from R26 and R120: when the word a host writes to `CMD` decodes to a command, the step is that command's, at the
state with `CMD` stored. What the step adds around it, in the model's own terms: the access leaves the queue, and nothing is
returned to the host (log entries 3 and 4). -/
def Obligations.StepRunsTheDecodedCommand : Prop :=
  ∀ (s : State) (v : HostValue) (rest : List HostAction) (i : Instr),
    s.hostQueue = .writeReg 0 v :: rest →
    decodeWord (v.setWidth 16) = .ok i →
    step s = exec i { s with hostQueue := rest, hostReply := .nothing, cmd := v.setWidth 16 }

/-! ### Host accesses -/

/-- Derived from R25, R27, R30: a register read returns the register's value, zero for a number above 10, and leaves every
piece of the core's state. -/
def Obligations.RegisterReadReturnsValue : Prop :=
  ∀ (s : State) (n : Nat) (rest : List HostAction),
    s.hostQueue = .readReg n :: rest →
    ∃ v : HostValue,
      step s = .next { s with hostQueue := rest, hostReply := .register v } ∧
      (n = 0 → v.toNat = s.cmd.toNat) ∧
      (n = 1 → v.toNat = s.err.code.toNat + 16 * s.alg.code.toNat + 256 * s.elog.toNat) ∧
      (n = 2 → v.toNat = s.keyin.toNat) ∧
      (n = 3 → v.toNat = s.din.toNat) ∧
      (n = 4 → v.toNat = s.dout.toNat) ∧
      (n = 5 → v.toNat = s.nonce.toNat) ∧
      (n = 6 → v.toNat = s.idx.toNat) ∧
      (n = 7 → v.toNat = s.len.toNat) ∧
      (n = 8 → v.toNat = s.rem.toNat) ∧
      (n = 9 → v.toNat = s.pad.toNat) ∧
      (n = 10 → v.toNat = s.olen.toNat) ∧
      (11 ≤ n → v.toNat = 0)

/-- Derived from R25, R30: a write of an `RW` register other than `CMD` stores the value; a write of an `R` register or of a
number above 10 does nothing. R30 gives the write a value of the register's width. That of a wider value the low bits of that
width are stored is the model's choice (log entry 4, DESIGN CHOICE), not the spec's, and so are the queue and the reply (log
entries 3 and 4). -/
def Obligations.RegisterWriteStoresValue : Prop :=
  ∀ (s : State) (n : Nat) (v : HostValue) (rest : List HostAction),
    s.hostQueue = .writeReg n v :: rest → n ≠ 0 →
    step s = .next { s with
      hostQueue := rest
      hostReply := .nothing
      keyin := if n = 2 then v else s.keyin
      din := if n = 3 then v.setWidth 128 else s.din
      nonce := if n = 5 then v.setWidth 128 else s.nonce
      idx := if n = 6 then v.setWidth 64 else s.idx
      len := if n = 7 then v.setWidth 32 else s.len
      rem := if n = 8 then v.setWidth 8 else s.rem }

/-- Derived from R31: after `HostWriteIBUF(a, b)` the byte at `a` reads `b` when the address exists, every other byte of both
buffers reads as before, and nothing else changes; a write at an address that does not exist is ignored. -/
def Obligations.IbufWriteChangesOneByte : Prop :=
  ∀ (s : State) (a : Nat) (b : Byte) (rest : List HostAction),
    s.hostQueue = .writeIbuf a b :: rest →
    ∃ t, step s = .next t ∧
      t = { s with hostQueue := rest, hostReply := .nothing, ibuf := t.ibuf } ∧
      (∀ x, t.bufByte .ibuf x = if x = a ∧ a < s.cfg.bufBytes then b else s.bufByte .ibuf x) ∧
      (s.cfg.bufBytes ≤ a → t.ibuf = s.ibuf)

/-- Derived from R31: a host read of a buffer returns the byte, zero at or above `BUFBYTES`, and changes nothing. -/
def Obligations.BufferReadReturnsByte : Prop :=
  ∀ (s : State) (a : Nat) (rest : List HostAction),
    (s.hostQueue = .readIbuf a :: rest →
      step s = .next { s with
        hostQueue := rest
        hostReply := .byte (if a < s.cfg.bufBytes then s.bufByte .ibuf a else 0#8) }) ∧
    (s.hostQueue = .readObuf a :: rest →
      step s = .next { s with
        hostQueue := rest
        hostReply := .byte (if a < s.cfg.bufBytes then s.bufByte .obuf a else 0#8) })

/-- Derived from R50 and R381: every piece of state at its reset value. The buffers are unspecified: each byte
reads as the free value of the new reset, on which nothing is said. The model's own fields: the parameters and the accesses to come stay (log entries 1, 2
and 3). Power-up is the same event. -/
def Obligations.ResetGivesTheResetValues : Prop :=
  (∀ (s : State) (rest : List HostAction),
    s.hostQueue = .reset :: rest →
    ∃ t, step s = .next t ∧
      t = { cmd := 0, err := .ok, elog := 0, keyin := 0, din := 0, dout := 0, nonce := 0, idx := 0, len := 0,
            rem := 0, pad := 0, olen := 0, alg := .none,
            dk := Vector.replicate 3 (Vector.replicate 16 0), rka := Vector.replicate 28 (Vector.replicate 16 0),
            ibuf := [], obuf := [], cfg := s.cfg, epoch := s.epoch + 1, hostQueue := rest,
            hostReply := .nothing } ∧
      ∀ space a, t.bufByte space a = Config.unwrittenByte space (s.epoch + 1) a) ∧
  (∀ n, readHostReg State.reset n = 0) ∧
  State.reset.alg = .none ∧
  State.reset.dk = Vector.replicate 3 (Vector.replicate 16 0) ∧
  State.reset.rka = Vector.replicate 28 (Vector.replicate 16 0)

/-- Derived from R381, R342: after reset `ENC`, `DEC`, `CTRX`, `STRE` and `STRD` end with `NoKey`, and in general they do
whenever there is no instance. -/
def Obligations.NoInstanceMeansNoKey : Prop :=
  ∀ (i : Instr) (s : State), i ∈ [Instr.enc, .dec, .ctrx, .stre, .strd] →
    s.alg = .none →
    exec i s = .next { s with err := .noKey, elog := s.elog ||| 0b00010#5 }

/-! ### How a command ends -/

/-- Derived from R353 and spec file 93 ("Nothing in the core is `stuck`"): every step goes on. -/
def Obligations.EveryStepGoesOn : Prop := ∀ s : State, ∃ t, step s = .next t

/-- Derived from R350 and R352: what a write of `CMD` that ends with an error changes, with what the step adds around it
(log entries 3 and 4). -/
def Obligations.FailingCommandChangesOnlyStatus : Prop :=
  ∀ (s t : State) (v : HostValue) (rest : List HostAction),
    s.hostQueue = .writeReg 0 v :: rest → step s = .next t → t.err ≠ .ok →
    t = { s with
      hostQueue := rest
      hostReply := .nothing
      cmd := v.setWidth 16
      err := t.err
      elog := s.elog ||| (1#5 <<< (t.err.code.toNat - 1)) }

/-- Derived from R351: a command that succeeds leaves `ELOG`. -/
def Obligations.SuccessKeepsTheErrorLog : Prop :=
  ∀ (s t : State) (v : HostValue) (rest : List HostAction),
    s.hostQueue = .writeReg 0 v :: rest → step s = .next t → t.err = .ok → t.elog = s.elog

/-- Derived from R27, R32: a bit of `ELOG` is cleared only by reset. -/
def Obligations.ErrorLogIsSticky : Prop :=
  ∀ (s t : State), step s = .next t → s.hostQueue.head? ≠ some .reset → s.elog &&& t.elog = s.elog

/-- Derived from R36: `ERR` and `ELOG` are read by no command. -/
def Obligations.NoCommandReadsErrOrElog : Prop :=
  ∀ (i : Instr) (s t : State) (e : ErrCode) (l : BitVec 5),
    exec i s = .next t →
    exec i { s with err := e, elog := l } = .next { t with elog := l ||| t.err.logBit }

/-- Derived from R348, R311, R313: the one error that `STRD` reports, whatever else is wrong. -/
def Obligations.StrdReportsTheFirstError : Prop :=
  ∀ (s t : State), exec .strd s = .next t →
    t.err =
      if s.alg = .none then .noKey
      else if algBlockBytes s.alg ≤ s.rem.toNat then .badOperand
      else if s.len.toNat = 0 ∧ s.rem.toNat ≠ 0 then .badOperand
      else if s.cfg.bufBytes < paddedLen s.len.toNat (algBlockBytes s.alg) then .bufferOverflow
      else .ok

/-! ### Key load and key clear -/

/-- R121: `KEYLOAD.DES`: its word, and what it does with 14 digits and with any other number. -/
def Obligations.KeyloadDesBuildsInstance : Prop :=
  (∀ nlen, nlen < 256 → (encode (.keyloadDes nlen)).toNat = 0x1000 + nlen) ∧
  ∀ s : State,
    exec (.keyloadDes 14) s = .next { s with
      alg := .des
      dk := #v[desDerive (pack56 s.cfg.pack (s.keyin.extractLsb' 200 56)), Vector.replicate 16 0, Vector.replicate 16 0]
      rka := Vector.replicate 28 (Vector.replicate 16 0)
      err := .ok } ∧
    ∀ nlen, nlen ≠ 14 →
      exec (.keyloadDes nlen) s = .next { s with err := .invalidKeySize, elog := s.elog ||| 0b00001#5 }

/-- R122: `KEYLOAD.TDES`: its word, and what it does with 42 digits and with any other number. -/
def Obligations.KeyloadTdesBuildsInstance : Prop :=
  (∀ nlen, nlen < 256 → (encode (.keyloadTdes nlen)).toNat = 0x1100 + nlen) ∧
  ∀ s : State,
    exec (.keyloadTdes 42) s = .next { s with
      alg := .tdes
      dk := #v[desDerive (pack56 s.cfg.pack (s.keyin.extractLsb' 200 56)),
               desDerive (pack56 s.cfg.pack (s.keyin.extractLsb' 144 56)),
               desDerive (pack56 s.cfg.pack (s.keyin.extractLsb' 88 56))]
      rka := Vector.replicate 28 (Vector.replicate 16 0)
      err := .ok } ∧
    ∀ nlen, nlen ≠ 42 →
      exec (.keyloadTdes nlen) s = .next { s with err := .invalidKeySize, elog := s.elog ||| 0b00001#5 }

/-- R123: `KEYLOAD.AES`: its word, and what it does with the three recognised numbers of digits and with any other. The
round-key array is that of the first `nlen / 2` bytes of `KEYIN`. -/
def Obligations.KeyloadAesBuildsInstance : Prop :=
  (∀ nlen, nlen < 256 → (encode (.keyloadAes nlen)).toNat = 0x1200 + nlen) ∧
  ∀ s : State,
    (∀ (nlen : Nat) (alg : Alg), (nlen, alg) ∈ [(32, Alg.aes128), (48, .aes192), (64, .aes256)] →
      exec (.keyloadAes nlen) s = .next { s with
        alg := alg
        dk := Vector.replicate 3 (Vector.replicate 16 0)
        rka := aesDeriveRka (nlen / 8) (fun j => s.keyin.extractLsb' (248 - 8 * j) 8)
        err := .ok }) ∧
    ∀ nlen, nlen ≠ 32 → nlen ≠ 48 → nlen ≠ 64 →
      exec (.keyloadAes nlen) s = .next { s with err := .invalidKeySize, elog := s.elog ||| 0b00001#5 }

/-- R128: `KEYCLR`: its word; it ends the instance and zeroes the key material and `DOUT`; everything else stays. -/
def Obligations.KeyclrErasesKeyMaterial : Prop :=
  encode .keyclr = 0x2000#16 ∧
  ∀ s : State,
    exec .keyclr s = .next { s with
      alg := .none
      dk := Vector.replicate 3 (Vector.replicate 16 0)
      rka := Vector.replicate 28 (Vector.replicate 16 0)
      keyin := 0
      dout := 0
      err := .ok }

/-- Derived from R43 and R40: the key slot changes only by a successful `KEYLOAD`, by `KEYCLR` or by reset. -/
def Obligations.OnlyKeyCommandsChangeTheKeySlot : Prop :=
  ∀ s t : State, step s = .next t →
    (t.alg = s.alg ∧ t.dk = s.dk ∧ t.rka = s.rka) ∨
    s.hostQueue.head? = some .reset ∨
    (∃ v i, s.hostQueue.head? = some (.writeReg 0 v) ∧ decodeWord (v.setWidth 16) = .ok i ∧ t.err = .ok ∧
      (i = .keyclr ∨ ∃ nlen, i = .keyloadDes nlen ∨ i = .keyloadTdes nlen ∨ i = .keyloadAes nlen))

/-- Derived from R62, R60, R43: which pieces of state each command leaves. The last clause is about the model's own fields (log
entries 1 to 4). -/
def Obligations.CommandsWriteOnlyTheirSpaces : Prop :=
  ∀ (i : Instr) (s t : State), exec i s = .next t →
    (t.ibuf = s.ibuf ∧ t.din = s.din ∧ t.nonce = s.nonce ∧ t.idx = s.idx ∧ t.len = s.len ∧ t.cmd = s.cmd) ∧
    (i ≠ .keyclr → t.keyin = s.keyin) ∧
    (i ∉ [Instr.keyclr, .enc, .dec, .ctrx] → t.dout = s.dout) ∧
    (i ≠ .stre → t.rem = s.rem) ∧
    (i ∉ [Instr.stre, .strd] → t.obuf = s.obuf ∧ t.pad = s.pad ∧ t.olen = s.olen) ∧
    (i ∈ [Instr.enc, .dec, .ctrx, .stre, .strd] → t.alg = s.alg ∧ t.dk = s.dk ∧ t.rka = s.rka) ∧
    (t.cfg = s.cfg ∧ t.epoch = s.epoch ∧ t.hostQueue = s.hostQueue ∧ t.hostReply = s.hostReply)

/-! ### The DES datapath -/

/-- R150, in LSB-0 terms: `result[outBits-1-i] = input[inW-1-table[i]]`. -/
def Obligations.PermuteMovesEachBit : Prop :=
  ∀ (inW outW : Nat) (table : List Nat) (x : BitVec inW) (i t : Nat),
    table.length = outW → (∀ k ∈ table, k < inW) → table[i]? = some t →
    (permute table outW x).getLsbD (outW - 1 - i) = x.getLsbD (inW - 1 - t)

/-- Derived from R158, R151: `FP` and `IP` are inverse to each other on every value. -/
def Obligations.FinalPermutationInvertsInitial : Prop :=
  ∀ v : BitVec 64,
    permute fpTable 64 (permute ipTable 64 v) = v ∧ permute ipTable 64 (permute fpTable 64 v) = v

/-- Derived from R158: output chunk `c` of the expansion is input bits `4c-1 .. 4c+4` modulo 32, in MSB-0 numbering. -/
def Obligations.ExpansionTakesOverlappingChunks : Prop :=
  ∀ (h : BitVec 32) (c k : Nat), c < 8 → k < 6 →
    (permute expansionTable 48 h).getMsbD (6 * c + k) = h.getMsbD ((4 * c + 31 + k) % 32)

/-- Derived from R193: the least significant bit of each byte of the container has no effect on any subkey. -/
def Obligations.ParityBitsHaveNoEffect : Prop :=
  ∀ kc m : BitVec 64, desDerive (kc ^^^ (m &&& 0x0101010101010101#64)) = desDerive kc

/-- Derived from R195, R193: with the default `PACK56` the container is the number the key spells, the seven key bits 48, 40,
..., 0 have no effect on the subkeys, and each of the other 49 reaches them: flipping it changes some subkey. -/
def Obligations.ZeroExtendedKeyUsesFortyNineBits : Prop :=
  ∀ k m : BitVec 56,
    (pack56 .zeroExtend k).toNat = k.toNat ∧
    desDerive (pack56 .zeroExtend (k ^^^ (m &&& 0x01010101010101#56))) = desDerive (pack56 .zeroExtend k) ∧
    ∀ b, b < 56 → b % 8 ≠ 0 →
      desDerive (pack56 .zeroExtend (k ^^^ (1#56 <<< b))) ≠ desDerive (pack56 .zeroExtend k)

/-- R191: subkey `r` is taken from the original halves rotated left by `SHIFTS[0] + ... + SHIFTS[r]`, and so the last from the
unrotated halves (R193). -/
def Obligations.SubkeysComeFromRotatedHalves : Prop :=
  ∀ (kc : BitVec 64) (r : Nat) (hr : r < 16),
    (desDerive kc)[r] =
      permute pc2Table 48
        (((permute pc1Table 56 kc).extractLsb' 28 28).rotateLeft (totalShift r) ++
          ((permute pc1Table 56 kc).extractLsb' 0 28).rotateLeft (totalShift r)) ∧
    (desDerive kc)[15] = permute pc2Table 48 (permute pc1Table 56 kc)

/-- R173: `Substitute(x)` is `n7 || ... || n0` with `n_i = SBOXD[7-i][x[6*i+5 : 6*i]]`. -/
def Obligations.SubstituteReadsTheDirectRoms : Prop :=
  (∀ (s : Nat) (c : BitVec 6), s < 8 →
    sboxd s c.toNat = sbox s ((c.extractLsb' 5 1).toNat * 2 + (c.extractLsb' 0 1).toNat) (c.extractLsb' 1 4).toNat) ∧
  ∀ (x : BitVec 48) (i : Nat), i < 8 →
    (substitute x).extractLsb' (4 * i) 4 = sboxd (7 - i) (x.extractLsb' (6 * i) 6).toNat

/-- Derived from R174: for fixed outer bits the map from the middle four bits to a ROM's output is a bijection. -/
def Obligations.SboxRowsArePermutations : Prop :=
  ∀ s row : Nat, s < 8 → row < 4 → ((List.range 16).map (sbox s row)).Perm ((List.range 16).map (BitVec.ofNat 4))

/-- Derived from R214: for any sixteen 48-bit values as subkeys, each direction undoes the other. -/
def Obligations.DesDirectionsAreInverse : Prop :=
  ∀ (block : BitVec 64) (sub : DesSchedule),
    desDecrypt (desEncrypt block sub) sub = block ∧ desEncrypt (desDecrypt block sub) sub = block

/-- Derived from R214: with `sub[n] = sub[15-n]` the two directions are the same function. -/
def Obligations.PalindromicScheduleMergesDirections : Prop :=
  ∀ (block : BitVec 64) (sub : DesSchedule),
    (∀ (n : Nat) (h : n < 16), sub[n] = sub[15 - n]) → desEncrypt block sub = desDecrypt block sub

/-- R234: the two directions of Triple-DES undo each other, for every three arrays. -/
def Obligations.TdesDirectionsAreInverse : Prop :=
  ∀ (x : BitVec 64) (s1 s2 s3 : DesSchedule),
    tdesDecrypt (tdesEncrypt x s1 s2 s3) s1 s2 s3 = x ∧ tdesEncrypt (tdesDecrypt x s1 s2 s3) s1 s2 s3 = x

/-- Derived from R235: equal neighbouring thirds make Triple-DES single DES. -/
def Obligations.TdesWithEqualThirdsIsDes : Prop :=
  ∀ (x : BitVec 64) (s t : DesSchedule),
    tdesEncrypt x s s t = desEncrypt x t ∧ tdesEncrypt x s t t = desEncrypt x s

/-! ### The AES datapath -/

/-- Derived from R240: `gmul` is commutative, associative and distributes over XOR. -/
def Obligations.FieldMultiplicationLaws : Prop :=
  ∀ a b c : Byte,
    gmul a b = gmul b a ∧ gmul (gmul a b) c = gmul a (gmul b c) ∧ gmul a (b ^^^ c) = gmul a b ^^^ gmul a c

/-- Derived from R240, R241, R242: the tables hold the affine map of the field inverse, and its inverse. -/
def Obligations.AesSboxIsAffineOfInverse : Prop :=
  ∀ a : Byte,
    (a ≠ 0 → gmul a (ginv a) = 1) ∧
    asbox a = ginv a ^^^ (ginv a).rotateLeft 1 ^^^ (ginv a).rotateLeft 2 ^^^ (ginv a).rotateLeft 3 ^^^
      (ginv a).rotateLeft 4 ^^^ 0x63#8 ∧
    ainv (asbox a) = a

/-- Derived from R272, R274, R276, R277: each step of the round is undone by its inverse, and `InvMixColumns` is linear over
XOR. -/
def Obligations.AesStepsHaveInverses : Prop :=
  ∀ s k : AesBlock,
    invSubBytes (subBytes s) = s ∧ invShiftRows (shiftRows s) = s ∧ invMixColumns (mixColumns s) = s ∧
    addRoundKey (addRoundKey s k) k = s ∧
    invMixColumns (addRoundKey s k) = addRoundKey (invMixColumns s) (invMixColumns k)

/-- R245: the words of the expansion, their number and the recurrence. -/
def Obligations.AesExpansionRecurrence : Prop :=
  ∀ (nk : Nat) (key : Nat → Byte), nk ∈ [4, 6, 8] →
    (aesExpand nk key).length = 4 * (nk + 7) ∧
    (∀ i, i < nk →
      wordAt (aesExpand nk key) i = ⟨key (4 * i), key (4 * i + 1), key (4 * i + 2), key (4 * i + 3)⟩) ∧
    (∀ i, nk ≤ i → i < 4 * (nk + 7) →
      wordAt (aesExpand nk key) i =
        (wordAt (aesExpand nk key) (i - nk)).xor
          (if i % nk = 0 then
            (subWord (rotWord (wordAt (aesExpand nk key) (i - 1)))).xor ⟨rcon (i / nk - 1), 0, 0, 0⟩
          else if nk = 8 ∧ i % nk = 4 then subWord (wordAt (aesExpand nk key) (i - 1))
          else wordAt (aesExpand nk key) (i - 1)))

/-- Derived from R247, R42, R123: the entries of the array as a key load stores it: the forward keys, then the transformed keys
in reverse order, then the entries of the 28 of `RKA` that are not in use, zero. -/
def Obligations.AesRoundKeyArrayEntries : Prop :=
  ∀ (nk : Nat) (key : Nat → Byte), nk ∈ [4, 6, 8] →
    (∀ r, r ≤ nk + 6 → keyAt (aesDeriveRka nk key) r = forwardKey (aesExpand nk key) r) ∧
    (∀ k, 1 ≤ k → k < nk + 6 →
      keyAt (aesDeriveRka nk key) (nk + 6 + k) = invMixColumns (forwardKey (aesExpand nk key) (nk + 6 - k))) ∧
    (∀ k, 2 * (nk + 6) ≤ k → k < 28 → keyAt (aesDeriveRka nk key) k = Vector.replicate 16 0)

/-- Derived from R282: with a round-key array whose second half is the transformed first half, each direction undoes the
other. -/
def Obligations.AesDirectionsAreInverse : Prop :=
  ∀ (b : AesBlock) (rk : RoundKeys) (nr : Nat), nr ∈ [10, 12, 14] → DecryptHalfOf rk nr →
    aesDecrypt (aesEncrypt b rk nr) rk nr = b ∧ aesEncrypt (aesDecrypt b rk nr) rk nr = b

/-- Derived from R282: with such a round-key array the equivalent inverse cipher equals the direct inverse. -/
def Obligations.EquivalentInverseEqualsDirectInverse : Prop :=
  ∀ (b : AesBlock) (rk : RoundKeys) (nr : Nat), nr ∈ [10, 12, 14] → DecryptHalfOf rk nr →
    aesDecrypt b rk nr = directDecrypt b rk nr

/-! ### The block commands -/

/-- R126: `ENC`: its word, and what it does with each kind of instance and with none. -/
def Obligations.EncWritesTheCiphertext : Prop :=
  encode .enc = 0x3000#16 ∧
  ∀ s : State,
    (s.alg = .none → exec .enc s = .next { s with err := .noKey, elog := s.elog ||| 0b00010#5 }) ∧
    (s.alg = .des → exec .enc s = .next { s with
      dout := (desEncrypt (s.din.setWidth 64) s.dk[0]).setWidth 128, err := .ok }) ∧
    (s.alg = .tdes → exec .enc s = .next { s with
      dout := (tdesEncrypt (s.din.setWidth 64) s.dk[0] s.dk[1] s.dk[2]).setWidth 128, err := .ok }) ∧
    (∀ nr, s.alg.aesRounds = some nr → exec .enc s = .next { s with
      dout := ofAesBlock (aesEncrypt (toAesBlock s.din) s.rka nr), err := .ok })

/-- R127: `DEC`: its word, and what it does with each kind of instance and with none. -/
def Obligations.DecWritesThePlaintext : Prop :=
  encode .dec = 0x4000#16 ∧
  ∀ s : State,
    (s.alg = .none → exec .dec s = .next { s with err := .noKey, elog := s.elog ||| 0b00010#5 }) ∧
    (s.alg = .des → exec .dec s = .next { s with
      dout := (desDecrypt (s.din.setWidth 64) s.dk[0]).setWidth 128, err := .ok }) ∧
    (s.alg = .tdes → exec .dec s = .next { s with
      dout := (tdesDecrypt (s.din.setWidth 64) s.dk[0] s.dk[1] s.dk[2]).setWidth 128, err := .ok }) ∧
    (∀ nr, s.alg.aesRounds = some nr → exec .dec s = .next { s with
      dout := ofAesBlock (aesDecrypt (toAesBlock s.din) s.rka nr), err := .ok })

/-- Derived from R125: for every instance and every block, each direction undoes the other, on the block of the instance's width. -/
def Obligations.BlockDirectionsAreInverse : Prop :=
  ∀ (s : State) (c : Cipher), Inv s → s.cipher = some c → ∀ x : Block,
    c.decrypt (c.encrypt x) = algNarrow s.alg x ∧ c.encrypt (c.decrypt x) = algNarrow s.alg x

/-- Derived from R125 to R127: `ENC`, the result copied to `DIN`, then `DEC` gives the block back, and the other way round. -/
def Obligations.EncThenDecGivesTheBlockBack : Prop :=
  ∀ s : State, Inv s → s.alg ≠ .none →
    (∃ t u, exec .enc s = .next t ∧ t.err = .ok ∧ exec .dec { t with din := t.dout } = .next u ∧
      u.dout = algNarrow s.alg s.din ∧ u.err = .ok) ∧
    (∃ t u, exec .dec s = .next t ∧ t.err = .ok ∧ exec .enc { t with din := t.dout } = .next u ∧
      u.dout = algNarrow s.alg s.din ∧ u.err = .ok)

/-- Derived from R305 and R301: `CTRX`, the XOR of the block with the encryption of nonce XOR index. -/
def Obligations.CtrxXorsTheKeystream : Prop :=
  ∀ s : State,
    (s.alg = .none → exec .ctrx s = .next { s with err := .noKey, elog := s.elog ||| 0b00010#5 }) ∧
    (s.alg = .des → exec .ctrx s = .next { s with
      dout := (s.din.setWidth 64 ^^^ desEncrypt (s.nonce.setWidth 64 ^^^ s.idx) s.dk[0]).setWidth 128
      err := .ok }) ∧
    (s.alg = .tdes → exec .ctrx s = .next { s with
      dout := (s.din.setWidth 64 ^^^
        tdesEncrypt (s.nonce.setWidth 64 ^^^ s.idx) s.dk[0] s.dk[1] s.dk[2]).setWidth 128
      err := .ok }) ∧
    (∀ nr, s.alg.aesRounds = some nr → exec .ctrx s = .next { s with
      dout := s.din ^^^ ofAesBlock (aesEncrypt (toAesBlock (s.nonce ^^^ s.idx.setWidth 128)) s.rka nr)
      err := .ok })

/-- Derived from R304, R305: `CTRX` applied to its own output gives the block back. -/
def Obligations.CtrxIsItsOwnInverse : Prop :=
  ∀ s : State, s.alg ≠ .none →
    ∃ t u, exec .ctrx s = .next t ∧ t.err = .ok ∧ exec .ctrx { t with din := t.dout } = .next u ∧
      u.dout = algNarrow s.alg s.din ∧ u.err = .ok

/-! ### The stream commands -/

/-- Derived from R307, R308, R312: the lengths of a padded stream. -/
def Obligations.PaddedLengthIsWholeBlocks : Prop :=
  ∀ len blockBytes : Nat, blockBytes = 8 ∨ blockBytes = 16 →
    paddedLen len blockBytes = blockBytes * blockCount len blockBytes ∧
    len ≤ paddedLen len blockBytes ∧ paddedLen len blockBytes < len + blockBytes ∧
    streamRem len blockBytes = (blockBytes - streamPad len blockBytes) % blockBytes ∧
    paddedLen len blockBytes = len + streamPad len blockBytes

/-- Derived from R310, R309, R301, R65: `STRE` with an instance and an input that fits. Output byte `j` of block `i`, at
address `B*i+j`, is the padded input byte XOR byte `j` of the keystream block; the bytes past the padded length stay. -/
def Obligations.StreEncryptsThePaddedInput : Prop :=
  ∀ (s : State) (c : Cipher) (B : Nat), s.cipher = some c → B = algBlockBytes s.alg →
    paddedLen s.len.toNat B ≤ s.cfg.bufBytes →
    ∃ t, exec .stre s = .next t ∧
      t = { s with obuf := t.obuf, rem := t.rem, pad := t.pad, olen := t.olen, err := .ok } ∧
      t.rem.toNat = s.len.toNat % B ∧
      t.pad.toNat = (B - s.len.toNat % B) % B ∧
      t.olen.toNat = paddedLen s.len.toNat B ∧
      (∀ i j, i < blockCount s.len.toNat B → j < B →
        t.bufByte .obuf (B * i + j) =
          (if B * i + j < s.len.toNat then s.bufByte .ibuf (B * i + j) else 0) ^^^
          (c.encrypt (c.narrow s.nonce ^^^ BitVec.ofNat 128 i)).extractLsb' (8 * (B - 1 - j)) 8) ∧
      (∀ a, paddedLen s.len.toNat B ≤ a → t.bufByte .obuf a = s.bufByte .obuf a)

/-- Derived from R310, R312, R344: `STRE` refuses an input whose padded length does not fit. -/
def Obligations.StreRefusesOverflow : Prop :=
  ∀ s : State, s.alg ≠ .none → s.cfg.bufBytes < paddedLen s.len.toNat (algBlockBytes s.alg) →
    exec .stre s = .next { s with err := .bufferOverflow, elog := s.elog ||| 0b01000#5 }

/-- Derived from R311, R309, R301, R65: `STRD` with an instance, a possible remainder and an input that fits. -/
def Obligations.StrdDecryptsAndCuts : Prop :=
  ∀ (s : State) (c : Cipher) (B : Nat), s.cipher = some c → B = algBlockBytes s.alg →
    s.rem.toNat < B → (s.len.toNat = 0 → s.rem.toNat = 0) →
    paddedLen s.len.toNat B ≤ s.cfg.bufBytes →
    ∃ t, exec .strd s = .next t ∧
      t = { s with obuf := t.obuf, pad := t.pad, olen := t.olen, err := .ok } ∧
      t.pad.toNat = (B - s.rem.toNat) % B ∧
      t.olen.toNat + t.pad.toNat = paddedLen s.len.toNat B ∧
      (∀ i j, i < blockCount s.len.toNat B → j < B →
        t.bufByte .obuf (B * i + j) =
          (if B * i + j < s.len.toNat then s.bufByte .ibuf (B * i + j) else 0) ^^^
          (c.encrypt (c.narrow s.nonce ^^^ BitVec.ofNat 128 i)).extractLsb' (8 * (B - 1 - j)) 8) ∧
      (∀ a, paddedLen s.len.toNat B ≤ a → t.bufByte .obuf a = s.bufByte .obuf a)

/-- R316: the output is the same for every order in which each block is processed once, and the outcome of `STRE` and of
`STRD` for every number of lanes. -/
def Obligations.LaneOrderCannotBeObserved : Prop :=
  ∀ s : State, s.obuf.wf →
    (∀ (c : Cipher) (order : List Nat), order.Perm (List.range (blockCount s.len.toNat c.blockBytes)) →
      s.streamBlocks c order = s.streamOutput c) ∧
    (∀ (lanes : Nat) (t : State),
      (exec .stre s = .next t →
        exec .stre { s with cfg := { s.cfg with lanesLessOne := lanes } } =
          .next { t with cfg := { t.cfg with lanesLessOne := lanes } }) ∧
      (exec .strd s = .next t →
        exec .strd { s with cfg := { s.cfg with lanesLessOne := lanes } } =
          .next { t with cfg := { t.cfg with lanesLessOne := lanes } }))

/-- Derived from R318: `STRE`, the output copied to the input with `LEN <- OLEN` and `REM` left, then `STRD`, gives the
original length and the original bytes, zero in the padding. -/
def Obligations.StreamRoundTrip : Prop :=
  ∀ (s t u : State) (B : Nat), s.alg ≠ .none → B = algBlockBytes s.alg →
    paddedLen s.len.toNat B ≤ s.cfg.bufBytes → exec .stre s = .next t →
    u.alg = t.alg → u.dk = t.dk → u.rka = t.rka → u.nonce = t.nonce → u.cfg = t.cfg → u.rem = t.rem → u.len = t.olen →
    (∀ a, a < t.olen.toNat → u.bufByte .ibuf a = t.bufByte .obuf a) →
    ∃ v, exec .strd u = .next v ∧ v.err = .ok ∧ v.olen = s.len ∧
      (∀ a, a < s.len.toNat → v.bufByte .obuf a = s.bufByte .ibuf a) ∧
      (∀ a, s.len.toNat ≤ a → a < paddedLen s.len.toNat B → v.bufByte .obuf a = 0)

/-- Derived from R305, R310: block `i` of what `STRE` puts in `OBUF` is what `CTRX` gives for that block of the padded input
with `IDX` = `i`. -/
def Obligations.StreAgreesWithCtrx : Prop :=
  ∀ (s t : State) (B i : Nat), s.alg ≠ .none → B = algBlockBytes s.alg →
    exec .stre s = .next t → t.err = .ok → i < blockCount s.len.toNat B →
    ∃ u, exec .ctrx { s with din := beValue (s.inBlock B i), idx := BitVec.ofNat 64 i } = .next u ∧ u.err = .ok ∧
      ∀ j, j < B → t.bufByte .obuf (B * i + j) = u.dout.extractLsb' (8 * (B - 1 - j)) 8

/-! ### The whole machine -/

/-- Derived from R41 to R44, R247, R350: the invariant of the core is kept by every step. That a buffer is a list in canonical
form is the model's own (log entry 2). -/
def Obligations.EveryStepKeepsInv : Prop := ∀ s t : State, Inv s → step s = .next t → Inv t

/-- Derived from R50: the state after reset has the invariant. -/
def Obligations.ResetHasInv : Prop := Inv State.reset

/-- Derived from R20, R32, R41, R42: no access but a command and reset tells the host anything of the subkeys or the round
keys, or lets it change them. -/
def Obligations.HostCannotReachTheKeyStores : Prop :=
  ∀ (s t : State) (d : Vector DesSchedule 3) (r : RoundKeys) (act : HostAction) (rest : List HostAction),
    s.hostQueue = act :: rest → (∀ v, act ≠ .writeReg 0 v) → act ≠ .reset → step s = .next t →
    t.dk = s.dk ∧ t.rka = s.rka ∧ step { s with dk := d, rka := r } = .next { t with dk := d, rka := r }

/-- Derived from R28, R33: the host places digit `n` of a key string at bits `255-4n : 252-4n` of `KEYIN`. -/
def Obligations.StagedKeyHoldsEachDigit : Prop :=
  ∀ (digits : List (BitVec 4)) (n : Nat), n < 64 →
    (stagedKey digits).extractLsb' (252 - 4 * n) 4 = (digits[n]?).getD 0
end

