-- ==== Sys2Proof/Laws/Memory.lean ====
section
/-! SUPPORT. The laws of the byte buffers: what a read gives after a write, and that every operation keeps the canonical
form and the bound on addresses. -/

namespace Sys2Proof.Machine

@[simp] theorem written_nil (x : Nat) : Memory.written [] x = none := rfl

theorem written_cons (c : Host.Cell) (m : Memory) (x : Nat) :
    Memory.written (c :: m) x = if x = c.1 then some c.2 else Memory.written m x := by
  obtain ⟨a, b⟩ := c
  by_cases h : x = a
  · simp [Memory.written, h]
  · have : (x == a) = false := by simp [h]
    simp [Memory.written, List.lookup_cons, h, this]

/-- Read after write: the written address gives the byte, every other address what it gave. -/
theorem written_store (m : Memory) (a : Nat) (b : Byte) (x : Nat) :
    (m.store a b).written x = if x = a then some b else m.written x := by
  induction m with
  | nil => simp [Memory.store, written_cons]
  | cons c m ih =>
    unfold Memory.store
    split
    · simp [written_cons]
    · split
      · by_cases h : x = a <;> simp_all [written_cons]
      · by_cases h : x = c.1 <;> by_cases h' : x = a <;> simp_all [written_cons]

/-- The addresses listed after a write: those before it, and the written one. -/
theorem mem_store_fst {m : Memory} {a : Nat} {b : Byte} {c : Host.Cell} (h : c ∈ m.store a b) :
    c.1 = a ∨ c ∈ m := by
  induction m with
  | nil => simp [Memory.store] at h; simp [h]
  | cons d m ih =>
    unfold Memory.store at h
    split at h
    · simp only [List.mem_cons] at h ⊢; aesop
    · split at h
      · simp only [List.mem_cons] at h ⊢; aesop
      · simp only [List.mem_cons] at h ⊢
        rcases h with h | h
        · exact .inr (.inl h)
        · exact (ih h).imp id .inr

theorem store_wf {m : Memory} (h : m.wf) (a : Nat) (b : Byte) : (m.store a b).wf := by
  induction m with
  | nil => simp [Memory.store, Memory.wf]
  | cons c m ih =>
    obtain ⟨hc, hm⟩ := List.pairwise_cons.mp h
    unfold Memory.store
    split
    · rename_i hlt
      refine List.pairwise_cons.mpr ⟨fun d hd => ?_, h⟩
      rcases List.mem_cons.mp hd with rfl | hd
      · exact hlt
      · exact hlt.trans (hc d hd)
    · split
      · rename_i heq
        exact List.pairwise_cons.mpr ⟨fun d hd => by simpa [heq] using hc d hd, hm⟩
      · rename_i h1 h2
        refine List.pairwise_cons.mpr ⟨fun d hd => ?_, ih hm⟩
        rcases mem_store_fst hd with hd | hd
        · omega
        · exact hc d hd

theorem store_below {m : Memory} {n : Nat} (h : m.below n) {a : Nat} (ha : a < n) (b : Byte) :
    (m.store a b).below n := fun c hc => by
  rcases mem_store_fst hc with hc | hc
  · omega
  · exact h c hc

/-- What a sequence of writes leaves: the sequence at its addresses, and every other address as it was. -/
theorem written_storeBytes (m : Memory) (a : Nat) (bs : List Byte) (x : Nat) :
    (m.storeBytes a bs).written x =
      if a ≤ x ∧ x < a + bs.length then bs[x - a]? else m.written x := by
  induction bs generalizing m a with
  | nil => simp [Memory.storeBytes]
  | cons b bs ih =>
    rw [Memory.storeBytes, ih, written_store]
    simp only [List.length_cons]
    by_cases h1 : x = a
    · subst h1; simp
    · by_cases h2 : a ≤ x ∧ x < a + (bs.length + 1)
      · obtain ⟨k, rfl⟩ : ∃ k, x = a + (k + 1) := ⟨x - a - 1, by omega⟩
        have e1 : a + (k + 1) - (a + 1) = k := by omega
        have e2 : a + (k + 1) - a = k + 1 := by omega
        rw [if_pos (by omega), if_pos h2, e1, e2]; simp
      · rw [if_neg (by omega), if_neg h1, if_neg h2]

theorem storeBytes_wf {m : Memory} (h : m.wf) (a : Nat) (bs : List Byte) : (m.storeBytes a bs).wf := by
  induction bs generalizing m a with
  | nil => exact h
  | cons b bs ih => exact ih (store_wf h a b) (a + 1)

theorem storeBytes_below {m : Memory} {n : Nat} (h : m.below n) {a : Nat} {bs : List Byte}
    (ha : a + bs.length ≤ n) : (m.storeBytes a bs).below n := by
  induction bs generalizing m a with
  | nil => exact h
  | cons b bs ih =>
    simp only [List.length_cons] at ha
    exact ih (store_below h (by omega) b) (by omega)

/-- Two canonical buffers that give the same byte at every address are the same data. -/
theorem eq_of_written {m m' : Memory} (h : m.wf) (h' : m'.wf) (hw : ∀ x, m.written x = m'.written x) :
    m = m' := by
  have nolow : ∀ (n : Memory) (x : Nat), (∀ c ∈ n, x < c.1) → n.written x = none := by
    intro n x hn
    induction n with
    | nil => rfl
    | cons c n ih =>
      have := hn c (by simp)
      rw [written_cons, if_neg (by omega)]
      exact ih fun d hd => hn d (by simp [hd])
  induction m generalizing m' with
  | nil =>
    cases m' with
    | nil => rfl
    | cons c' m' => simpa [written_cons] using hw c'.1
  | cons c m ih =>
    obtain ⟨hc, hm⟩ := List.pairwise_cons.mp h
    cases m' with
    | nil => simpa [written_cons] using hw c.1
    | cons c' m' =>
      obtain ⟨hc', hm'⟩ := List.pairwise_cons.mp h'
      have key : c.1 = c'.1 := by
        rcases lt_trichotomy c.1 c'.1 with hlt | heq | hgt
        · have := hw c.1
          rw [nolow (c' :: m') c.1 (by
            intro d hd
            rcases List.mem_cons.mp hd with rfl | hd
            · exact hlt
            · exact hlt.trans (hc' d hd))] at this
          simp [written_cons] at this
        · exact heq
        · have := hw c'.1
          rw [nolow (c :: m) c'.1 (by
            intro d hd
            rcases List.mem_cons.mp hd with rfl | hd
            · exact hgt
            · exact hgt.trans (hc d hd))] at this
          simp [written_cons] at this
      have val : c.2 = c'.2 := by simpa [written_cons, key] using hw c.1
      have rest : m = m' := by
        refine ih hm hm' fun x => ?_
        by_cases hx : x = c.1
        · rw [hx, nolow m _ hc, nolow m' _ (by rw [key]; exact hc')]
        · have := hw x
          rwa [written_cons, written_cons, if_neg hx, if_neg (by rw [← key]; exact hx)] at this
      rw [rest, show c = c' from Prod.ext key val]

end Sys2Proof.Machine
end

