-- ==== Sys2Proof/Laws/State.lean ====
section
/-! SUPPORT. One lemma for each field of each state update: what the update leaves in the field. -/

namespace Sys2Proof.Machine

/-! ### The end of a command in an error (R350) -/

@[simp] theorem logError_cmd (s : State) (e : ErrCode) : (s.logError e).cmd = s.cmd := rfl
@[simp] theorem logError_err (s : State) (e : ErrCode) : (s.logError e).err = e := rfl
@[simp] theorem logError_elog (s : State) (e : ErrCode) : (s.logError e).elog = s.elog ||| e.logBit := rfl
@[simp] theorem logError_keyin (s : State) (e : ErrCode) : (s.logError e).keyin = s.keyin := rfl
@[simp] theorem logError_din (s : State) (e : ErrCode) : (s.logError e).din = s.din := rfl
@[simp] theorem logError_dout (s : State) (e : ErrCode) : (s.logError e).dout = s.dout := rfl
@[simp] theorem logError_nonce (s : State) (e : ErrCode) : (s.logError e).nonce = s.nonce := rfl
@[simp] theorem logError_idx (s : State) (e : ErrCode) : (s.logError e).idx = s.idx := rfl
@[simp] theorem logError_len (s : State) (e : ErrCode) : (s.logError e).len = s.len := rfl
@[simp] theorem logError_rem (s : State) (e : ErrCode) : (s.logError e).rem = s.rem := rfl
@[simp] theorem logError_pad (s : State) (e : ErrCode) : (s.logError e).pad = s.pad := rfl
@[simp] theorem logError_olen (s : State) (e : ErrCode) : (s.logError e).olen = s.olen := rfl
@[simp] theorem logError_alg (s : State) (e : ErrCode) : (s.logError e).alg = s.alg := rfl
@[simp] theorem logError_dk (s : State) (e : ErrCode) : (s.logError e).dk = s.dk := rfl
@[simp] theorem logError_rka (s : State) (e : ErrCode) : (s.logError e).rka = s.rka := rfl
@[simp] theorem logError_ibuf (s : State) (e : ErrCode) : (s.logError e).ibuf = s.ibuf := rfl
@[simp] theorem logError_obuf (s : State) (e : ErrCode) : (s.logError e).obuf = s.obuf := rfl
@[simp] theorem logError_cfg (s : State) (e : ErrCode) : (s.logError e).cfg = s.cfg := rfl
@[simp] theorem logError_epoch (s : State) (e : ErrCode) : (s.logError e).epoch = s.epoch := rfl
@[simp] theorem logError_hostQueue (s : State) (e : ErrCode) : (s.logError e).hostQueue = s.hostQueue := rfl
@[simp] theorem logError_hostReply (s : State) (e : ErrCode) : (s.logError e).hostReply = s.hostReply := rfl

/-! ### The end of a command in a success (R351) -/

@[simp] theorem clearErr_cmd (s : State) : (s.clearErr).cmd = s.cmd := rfl
@[simp] theorem clearErr_err (s : State) : (s.clearErr).err = .ok := rfl
@[simp] theorem clearErr_elog (s : State) : (s.clearErr).elog = s.elog := rfl
@[simp] theorem clearErr_keyin (s : State) : (s.clearErr).keyin = s.keyin := rfl
@[simp] theorem clearErr_din (s : State) : (s.clearErr).din = s.din := rfl
@[simp] theorem clearErr_dout (s : State) : (s.clearErr).dout = s.dout := rfl
@[simp] theorem clearErr_nonce (s : State) : (s.clearErr).nonce = s.nonce := rfl
@[simp] theorem clearErr_idx (s : State) : (s.clearErr).idx = s.idx := rfl
@[simp] theorem clearErr_len (s : State) : (s.clearErr).len = s.len := rfl
@[simp] theorem clearErr_rem (s : State) : (s.clearErr).rem = s.rem := rfl
@[simp] theorem clearErr_pad (s : State) : (s.clearErr).pad = s.pad := rfl
@[simp] theorem clearErr_olen (s : State) : (s.clearErr).olen = s.olen := rfl
@[simp] theorem clearErr_alg (s : State) : (s.clearErr).alg = s.alg := rfl
@[simp] theorem clearErr_dk (s : State) : (s.clearErr).dk = s.dk := rfl
@[simp] theorem clearErr_rka (s : State) : (s.clearErr).rka = s.rka := rfl
@[simp] theorem clearErr_ibuf (s : State) : (s.clearErr).ibuf = s.ibuf := rfl
@[simp] theorem clearErr_obuf (s : State) : (s.clearErr).obuf = s.obuf := rfl
@[simp] theorem clearErr_cfg (s : State) : (s.clearErr).cfg = s.cfg := rfl
@[simp] theorem clearErr_epoch (s : State) : (s.clearErr).epoch = s.epoch := rfl
@[simp] theorem clearErr_hostQueue (s : State) : (s.clearErr).hostQueue = s.hostQueue := rfl
@[simp] theorem clearErr_hostReply (s : State) : (s.clearErr).hostReply = s.hostReply := rfl

/-! ### A new key slot (R121 to R123, R128) -/

@[simp] theorem loadKeySlot_cmd (s : State) (a : Alg) (d : Vector DesSchedule 3) (r : RoundKeys) : (s.loadKeySlot a d r).cmd = s.cmd := rfl
@[simp] theorem loadKeySlot_err (s : State) (a : Alg) (d : Vector DesSchedule 3) (r : RoundKeys) : (s.loadKeySlot a d r).err = s.err := rfl
@[simp] theorem loadKeySlot_elog (s : State) (a : Alg) (d : Vector DesSchedule 3) (r : RoundKeys) : (s.loadKeySlot a d r).elog = s.elog := rfl
@[simp] theorem loadKeySlot_keyin (s : State) (a : Alg) (d : Vector DesSchedule 3) (r : RoundKeys) : (s.loadKeySlot a d r).keyin = s.keyin := rfl
@[simp] theorem loadKeySlot_din (s : State) (a : Alg) (d : Vector DesSchedule 3) (r : RoundKeys) : (s.loadKeySlot a d r).din = s.din := rfl
@[simp] theorem loadKeySlot_dout (s : State) (a : Alg) (d : Vector DesSchedule 3) (r : RoundKeys) : (s.loadKeySlot a d r).dout = s.dout := rfl
@[simp] theorem loadKeySlot_nonce (s : State) (a : Alg) (d : Vector DesSchedule 3) (r : RoundKeys) : (s.loadKeySlot a d r).nonce = s.nonce := rfl
@[simp] theorem loadKeySlot_idx (s : State) (a : Alg) (d : Vector DesSchedule 3) (r : RoundKeys) : (s.loadKeySlot a d r).idx = s.idx := rfl
@[simp] theorem loadKeySlot_len (s : State) (a : Alg) (d : Vector DesSchedule 3) (r : RoundKeys) : (s.loadKeySlot a d r).len = s.len := rfl
@[simp] theorem loadKeySlot_rem (s : State) (a : Alg) (d : Vector DesSchedule 3) (r : RoundKeys) : (s.loadKeySlot a d r).rem = s.rem := rfl
@[simp] theorem loadKeySlot_pad (s : State) (a : Alg) (d : Vector DesSchedule 3) (r : RoundKeys) : (s.loadKeySlot a d r).pad = s.pad := rfl
@[simp] theorem loadKeySlot_olen (s : State) (a : Alg) (d : Vector DesSchedule 3) (r : RoundKeys) : (s.loadKeySlot a d r).olen = s.olen := rfl
@[simp] theorem loadKeySlot_alg (s : State) (a : Alg) (d : Vector DesSchedule 3) (r : RoundKeys) : (s.loadKeySlot a d r).alg = a := rfl
@[simp] theorem loadKeySlot_dk (s : State) (a : Alg) (d : Vector DesSchedule 3) (r : RoundKeys) : (s.loadKeySlot a d r).dk = d := rfl
@[simp] theorem loadKeySlot_rka (s : State) (a : Alg) (d : Vector DesSchedule 3) (r : RoundKeys) : (s.loadKeySlot a d r).rka = r := rfl
@[simp] theorem loadKeySlot_ibuf (s : State) (a : Alg) (d : Vector DesSchedule 3) (r : RoundKeys) : (s.loadKeySlot a d r).ibuf = s.ibuf := rfl
@[simp] theorem loadKeySlot_obuf (s : State) (a : Alg) (d : Vector DesSchedule 3) (r : RoundKeys) : (s.loadKeySlot a d r).obuf = s.obuf := rfl
@[simp] theorem loadKeySlot_cfg (s : State) (a : Alg) (d : Vector DesSchedule 3) (r : RoundKeys) : (s.loadKeySlot a d r).cfg = s.cfg := rfl
@[simp] theorem loadKeySlot_epoch (s : State) (a : Alg) (d : Vector DesSchedule 3) (r : RoundKeys) : (s.loadKeySlot a d r).epoch = s.epoch := rfl
@[simp] theorem loadKeySlot_hostQueue (s : State) (a : Alg) (d : Vector DesSchedule 3) (r : RoundKeys) : (s.loadKeySlot a d r).hostQueue = s.hostQueue := rfl
@[simp] theorem loadKeySlot_hostReply (s : State) (a : Alg) (d : Vector DesSchedule 3) (r : RoundKeys) : (s.loadKeySlot a d r).hostReply = s.hostReply := rfl

/-! ### Taking an access off the queue -/

@[simp] theorem takeAccess_cmd (s : State) (q : List HostAction) : (s.takeAccess q).cmd = s.cmd := rfl
@[simp] theorem takeAccess_err (s : State) (q : List HostAction) : (s.takeAccess q).err = s.err := rfl
@[simp] theorem takeAccess_elog (s : State) (q : List HostAction) : (s.takeAccess q).elog = s.elog := rfl
@[simp] theorem takeAccess_keyin (s : State) (q : List HostAction) : (s.takeAccess q).keyin = s.keyin := rfl
@[simp] theorem takeAccess_din (s : State) (q : List HostAction) : (s.takeAccess q).din = s.din := rfl
@[simp] theorem takeAccess_dout (s : State) (q : List HostAction) : (s.takeAccess q).dout = s.dout := rfl
@[simp] theorem takeAccess_nonce (s : State) (q : List HostAction) : (s.takeAccess q).nonce = s.nonce := rfl
@[simp] theorem takeAccess_idx (s : State) (q : List HostAction) : (s.takeAccess q).idx = s.idx := rfl
@[simp] theorem takeAccess_len (s : State) (q : List HostAction) : (s.takeAccess q).len = s.len := rfl
@[simp] theorem takeAccess_rem (s : State) (q : List HostAction) : (s.takeAccess q).rem = s.rem := rfl
@[simp] theorem takeAccess_pad (s : State) (q : List HostAction) : (s.takeAccess q).pad = s.pad := rfl
@[simp] theorem takeAccess_olen (s : State) (q : List HostAction) : (s.takeAccess q).olen = s.olen := rfl
@[simp] theorem takeAccess_alg (s : State) (q : List HostAction) : (s.takeAccess q).alg = s.alg := rfl
@[simp] theorem takeAccess_dk (s : State) (q : List HostAction) : (s.takeAccess q).dk = s.dk := rfl
@[simp] theorem takeAccess_rka (s : State) (q : List HostAction) : (s.takeAccess q).rka = s.rka := rfl
@[simp] theorem takeAccess_ibuf (s : State) (q : List HostAction) : (s.takeAccess q).ibuf = s.ibuf := rfl
@[simp] theorem takeAccess_obuf (s : State) (q : List HostAction) : (s.takeAccess q).obuf = s.obuf := rfl
@[simp] theorem takeAccess_cfg (s : State) (q : List HostAction) : (s.takeAccess q).cfg = s.cfg := rfl
@[simp] theorem takeAccess_epoch (s : State) (q : List HostAction) : (s.takeAccess q).epoch = s.epoch := rfl
@[simp] theorem takeAccess_hostQueue (s : State) (q : List HostAction) : (s.takeAccess q).hostQueue = q := rfl
@[simp] theorem takeAccess_hostReply (s : State) (q : List HostAction) : (s.takeAccess q).hostReply = .nothing := rfl

/-! ### Reset (R50) -/

@[simp] theorem hostReset_cmd (s : State) : (hostReset s).cmd = 0#16 := rfl
@[simp] theorem hostReset_err (s : State) : (hostReset s).err = .ok := rfl
@[simp] theorem hostReset_elog (s : State) : (hostReset s).elog = 0#5 := rfl
@[simp] theorem hostReset_keyin (s : State) : (hostReset s).keyin = 0#256 := rfl
@[simp] theorem hostReset_din (s : State) : (hostReset s).din = 0#128 := rfl
@[simp] theorem hostReset_dout (s : State) : (hostReset s).dout = 0#128 := rfl
@[simp] theorem hostReset_nonce (s : State) : (hostReset s).nonce = 0#128 := rfl
@[simp] theorem hostReset_idx (s : State) : (hostReset s).idx = 0#64 := rfl
@[simp] theorem hostReset_len (s : State) : (hostReset s).len = 0#32 := rfl
@[simp] theorem hostReset_rem (s : State) : (hostReset s).rem = 0#8 := rfl
@[simp] theorem hostReset_pad (s : State) : (hostReset s).pad = 0#8 := rfl
@[simp] theorem hostReset_olen (s : State) : (hostReset s).olen = 0#32 := rfl
@[simp] theorem hostReset_alg (s : State) : (hostReset s).alg = .none := rfl
@[simp] theorem hostReset_dk (s : State) : (hostReset s).dk = zeroDk := rfl
@[simp] theorem hostReset_rka (s : State) : (hostReset s).rka = zeroRoundKeys := rfl
@[simp] theorem hostReset_ibuf (s : State) : (hostReset s).ibuf = [] := rfl
@[simp] theorem hostReset_obuf (s : State) : (hostReset s).obuf = [] := rfl
@[simp] theorem hostReset_cfg (s : State) : (hostReset s).cfg = s.cfg := rfl
@[simp] theorem hostReset_epoch (s : State) : (hostReset s).epoch = s.epoch + 1 := rfl
@[simp] theorem hostReset_hostQueue (s : State) : (hostReset s).hostQueue = s.hostQueue := rfl
@[simp] theorem hostReset_hostReply (s : State) : (hostReset s).hostReply = .nothing := rfl

/-! ### What the updates leave of the views -/

@[simp] theorem logError_cipher (s : State) (e : ErrCode) : (s.logError e).cipher = s.cipher := rfl
@[simp] theorem clearErr_cipher (s : State) : s.clearErr.cipher = s.cipher := rfl
@[simp] theorem takeAccess_cipher (s : State) (q : List HostAction) : (s.takeAccess q).cipher = s.cipher := rfl

@[simp] theorem logError_bufByte (s : State) (e : ErrCode) (sp : Space) (a : Nat) :
    (s.logError e).bufByte sp a = s.bufByte sp a := by cases sp <;> rfl
@[simp] theorem clearErr_bufByte (s : State) (sp : Space) (a : Nat) :
    s.clearErr.bufByte sp a = s.bufByte sp a := by cases sp <;> rfl
@[simp] theorem takeAccess_bufByte (s : State) (q : List HostAction) (sp : Space) (a : Nat) :
    (s.takeAccess q).bufByte sp a = s.bufByte sp a := by cases sp <;> rfl
@[simp] theorem loadKeySlot_bufByte (s : State) (x : Alg) (d : Vector DesSchedule 3) (r : RoundKeys) (sp : Space)
    (a : Nat) : (s.loadKeySlot x d r).bufByte sp a = s.bufByte sp a := by cases sp <;> rfl

@[simp] theorem memory_ibuf (s : State) : s.memory .ibuf = s.ibuf := rfl
@[simp] theorem memory_obuf (s : State) : s.memory .obuf = s.obuf := rfl

end Sys2Proof.Machine
end

