-- ==== Sys2Proof/Laws/Ops.lean ====
section
/-! SUPPORT. For each shared operation of a command, one lemma that says what it can do: how a command ends, which instance
the key slot holds, the byte order of blocks, and what the stream body leaves in `OBUF`. -/

namespace Sys2Proof.Machine

/-! ### How a command ends -/

theorem raise_eq_next {e : ErrCode} {s t : State} : raise e s = .next t ↔ s.logError e = t := by
  simp [raise]

theorem succeed_eq_next {s t : State} : succeed s = .next t ↔ s.clearErr = t := by
  simp [succeed]

/-- A command that needs an instance: without one it raises `NoKey`, with one it runs on it. -/
theorem withCipher_eq_next {s t : State} {run : Cipher → Result} :
    withCipher s run = .next t ↔
      (s.cipher = none ∧ s.logError .noKey = t) ∨ ∃ c, s.cipher = some c ∧ run c = .next t := by
  unfold withCipher
  cases s.cipher <;> simp [raise]

/-- The end of `ENC`, `DEC` and `CTRX`. -/
theorem writeDout_eq_next {v : Block} {s t : State} :
    writeDout v s = .next t ↔ { s with dout := v, err := .ok } = t := by
  simp [writeDout, succeed, State.clearErr]

/-! ### The instance -/

theorem cipher_eq_none {s : State} : s.cipher = none ↔ s.alg = .none := by
  unfold State.cipher
  cases s.alg <;> simp

theorem cipher_isSome {s : State} (h : s.alg ≠ .none) : ∃ c, s.cipher = some c :=
  Option.ne_none_iff_exists'.mp fun hn => h (cipher_eq_none.mp hn)

/-- A block is 8 or 16 bytes (R300). -/
theorem blockBytes_cases (c : Cipher) : c.blockBytes = 8 ∨ c.blockBytes = 16 := by
  cases c <;> simp [Cipher.blockBytes, Cipher.width]

theorem blockBytes_pos (c : Cipher) : 0 < c.blockBytes := by
  rcases blockBytes_cases c with h | h <;> omega

/-- `B` follows from `ALG` (R300). -/
theorem blockBytes_of_cipher {s : State} {c : Cipher} (h : s.cipher = some c) :
    c.blockBytes = algBlockBytes s.alg := by
  unfold State.cipher at h
  split at h <;> simp_all <;> subst h <;> simp [Cipher.blockBytes, Cipher.width, algBlockBytes]

/-- The block that an instance reads follows from `ALG` (R29). -/
theorem narrow_of_cipher {s : State} {c : Cipher} (h : s.cipher = some c) (x : Block) :
    c.narrow x = algNarrow s.alg x := by
  unfold State.cipher at h
  split at h <;> simp_all <;> subst h <;> simp [Cipher.narrow, Cipher.width, algNarrow]

/-! ### Byte order (R11, R65) -/

@[simp] theorem beBytes_length (n : Nat) (v : Block) : (beBytes n v).length = n := by simp [beBytes]

theorem getElem?_beBytes {n j : Nat} (v : Block) (h : j < n) :
    (beBytes n v)[j]? = some (v.extractLsb' (8 * (n - 1 - j)) 8) := by
  simp [beBytes, h]

/-- Bit `k` of a byte sequence's value, from an accumulator: byte `k/8` from the end, or the accumulator above the bytes. -/
theorem foldl_beValue_getLsbD (bs : List Byte) (acc : Block) (k : Nat) (hk : k < 128) :
    (bs.foldl (fun (a : Block) (b : Byte) => (a <<< 8) ||| b.setWidth 128) acc).getLsbD k =
      if k < 8 * bs.length then (bs.reverse.getD (k / 8) 0#8).getLsbD (k % 8)
      else acc.getLsbD (k - 8 * bs.length) := by
  induction bs generalizing acc with
  | nil => simp
  | cons b bs ih =>
    rw [List.foldl_cons, ih]
    simp only [List.length_cons, List.reverse_cons]
    by_cases h1 : k < 8 * bs.length
    · have : k / 8 < bs.reverse.length := by simp; omega
      rw [if_pos h1, if_pos (by omega)]
      simp only [List.getD_eq_getElem?_getD]
      rw [List.getElem?_append_left this]
    · rw [if_neg h1]
      by_cases h2 : k < 8 * (bs.length + 1)
      · have e : k / 8 = bs.length := by omega
        have e3 : k - 8 * bs.length = k % 8 := by omega
        have e4 : k % 8 < 8 := Nat.mod_lt _ (by norm_num)
        rw [if_pos h2, e3, e]
        have : (k % 8) < 128 := by omega
        simp [e4, this]
      · have e1 : ¬ k - 8 * bs.length < 8 := by omega
        have e2 : k - 8 * bs.length < 128 := by omega
        have e3 : k - 8 * bs.length - 8 = k - 8 * (bs.length + 1) := by omega
        have e4 : b.getLsbD (k - 8 * bs.length) = false := BitVec.getLsbD_of_ge _ _ (by omega)
        rw [if_neg h2]
        simp [e1, e2, e3, e4]
        rfl

/-- Byte `j` of a sequence is byte `j` of its value, counted from the most significant end of the sequence. -/
theorem extractLsb'_beValue (bs : List Byte) (h : bs.length ≤ 16) (j : Nat) (hj : j < bs.length) :
    (beValue bs).extractLsb' (8 * (bs.length - 1 - j)) 8 = bs[j] := by
  apply BitVec.eq_of_getLsbD_eq
  intro i hi
  have hk : 8 * (bs.length - 1 - j) + i < 128 := by omega
  rw [BitVec.getLsbD_extractLsb', beValue, foldl_beValue_getLsbD _ _ _ hk, if_pos (by omega)]
  have e1 : (8 * (bs.length - 1 - j) + i) / 8 = bs.length - 1 - j := by omega
  have e2 : (8 * (bs.length - 1 - j) + i) % 8 = i := by omega
  have e3 : bs.length - 1 - (bs.length - 1 - j) = j := by omega
  rw [e1, e2, List.getD_eq_getElem?_getD, List.getElem?_reverse (by omega)]
  simp [hi, e3, hj]

/-- A sequence's value has no bit above the sequence. -/
theorem beValue_getLsbD_of_ge (bs : List Byte) (k : Nat) (h : 8 * bs.length ≤ k) : (beValue bs).getLsbD k = false := by
  by_cases hk : k < 128
  · rw [beValue, foldl_beValue_getLsbD _ _ _ hk, if_neg (by omega)]; simp
  · exact BitVec.getLsbD_of_ge _ _ (by omega)

/-! ### Buffers -/

/-- A byte of `OBUF` when the buffer is replaced. -/
theorem bufByte_obuf (s : State) (a : Nat) :
    s.bufByte .obuf a = (s.obuf.written a).getD (Config.unwrittenByte .obuf s.epoch a) := rfl

theorem bufByte_ibuf (s : State) (a : Nat) :
    s.bufByte .ibuf a = (s.ibuf.written a).getD (Config.unwrittenByte .ibuf s.epoch a) := rfl

@[simp] theorem memRead_length (s : State) (space : Space) (addr n : Nat) : (s.memRead space addr n).length = n := by
  simp [State.memRead]

/-- Byte `j` of a read of several bytes (R63). -/
theorem getElem?_memRead (s : State) (space : Space) {addr n j : Nat} (h : j < n) :
    (s.memRead space addr n)[j]? = some (s.bufByte space (addr + j)) := by
  simp [State.memRead, h]

/-! ### The stream body -/

@[simp] theorem inBlock_length (s : State) (b i : Nat) : (s.inBlock b i).length = b := by simp [State.inBlock]

theorem getElem_inBlock (s : State) (b i j : Nat) (h : j < (s.inBlock b i).length) :
    (s.inBlock b i)[j] = s.inByte (b * i + j) := by simp [State.inBlock]

@[simp] theorem outBlock_length (s : State) (c : Cipher) (i : Nat) : (s.outBlock c i).length = c.blockBytes := by
  simp [State.outBlock]

/-- Byte `j` of output block `i`: the input byte XOR byte `j` of the keystream block (R303, R309, R310). -/
theorem getElem?_outBlock (s : State) (c : Cipher) (i : Nat) {j : Nat} (h : j < c.blockBytes) :
    (s.outBlock c i)[j]? =
      some (s.inByte (c.blockBytes * i + j) ^^^
        (c.keystream s.nonce (BitVec.ofNat 64 i)).extractLsb' (8 * (c.blockBytes - 1 - j)) 8) := by
  rw [State.outBlock, getElem?_beBytes _ h, Cipher.streamBlock]
  have hl : (s.inBlock c.blockBytes i).length = c.blockBytes := inBlock_length ..
  have hb : c.blockBytes ≤ 16 := by rcases blockBytes_cases c with h | h <;> omega
  have key := extractLsb'_beValue (s.inBlock c.blockBytes i) (by omega) j (by omega)
  rw [getElem_inBlock] at key
  simp only [inBlock_length] at key
  have hw : c.width = 8 * c.blockBytes := by cases c <;> simp [Cipher.blockBytes, Cipher.width]
  rw [BitVec.extractLsb'_xor]
  congr 2
  rw [← key]
  apply BitVec.eq_of_getLsbD_eq
  intro k hk
  have h1 : 8 * (c.blockBytes - 1 - j) + k < c.width := by omega
  have h2 : 8 * (c.blockBytes - 1 - j) + k < 128 := by omega
  simp [Cipher.narrow, hk, h1, h2]

/-- What the blocks of `order` leave at an address: the last block that covers it decides, and that is always the block with
number address / `B`. -/
theorem written_foldl_storeBlock (s : State) (c : Cipher) (order : List Nat) (m : Memory) (x : Nat) :
    Memory.written (order.foldl (s.storeBlock c) m) x =
      if x / c.blockBytes ∈ order then (s.outBlock c (x / c.blockBytes))[x % c.blockBytes]? else m.written x := by
  have hb := blockBytes_pos c
  induction order generalizing m with
  | nil => simp
  | cons i order ih =>
    rw [List.foldl_cons, ih]
    by_cases hx : x / c.blockBytes ∈ order
    · rw [if_pos hx, if_pos (List.mem_cons_of_mem _ hx)]
    · rw [if_neg hx, State.storeBlock, written_storeBytes, outBlock_length]
      by_cases hi : x / c.blockBytes = i
      · have h1 := Nat.div_add_mod x c.blockBytes
        have h2 := Nat.mod_lt x hb
        rw [hi] at h1
        rw [if_pos (by omega), if_pos (by rw [hi]; exact List.mem_cons_self), hi]
        congr 1; omega
      · rw [if_neg, if_neg (by simp [hi, hx])]
        rintro ⟨h1, h2⟩
        exact hi (Nat.div_eq_of_lt_le (by rw [Nat.mul_comm]; exact h1) (by rw [Nat.mul_comm, Nat.mul_succ]; exact h2))

theorem foldl_storeBlock_wf (s : State) (c : Cipher) (order : List Nat) {m : Memory} (h : m.wf) :
    Memory.wf (order.foldl (s.storeBlock c) m) := by
  induction order generalizing m with
  | nil => exact h
  | cons i order ih => exact ih (storeBytes_wf h _ _)

theorem foldl_storeBlock_below (s : State) (c : Cipher) (order : List Nat) {m : Memory} {n : Nat} (h : m.below n)
    (ho : ∀ i ∈ order, c.blockBytes * (i + 1) ≤ n) : Memory.below n (order.foldl (s.storeBlock c) m) := by
  induction order generalizing m with
  | nil => exact h
  | cons i order ih =>
    refine ih (storeBytes_below h ?_) fun k hk => ho k (List.mem_cons_of_mem _ hk)
    have := ho i List.mem_cons_self
    rw [outBlock_length]; rw [Nat.mul_succ] at this; exact this

/-- Every block is in exactly the lanes' order (R315). -/
theorem mem_laneOrder {lanes nb i : Nat} (h : 0 < lanes) : i ∈ laneOrder lanes nb ↔ i < nb := by
  simp only [laneOrder, laneBlocks, List.mem_flatMap, List.mem_range, List.mem_filter, beq_iff_eq]
  constructor
  · rintro ⟨_, _, h, _⟩; exact h
  · intro hi; exact ⟨i % lanes, Nat.mod_lt _ h, hi, rfl⟩

/-- The padded length is a whole number of blocks (R307). -/
theorem blockBytes_mul_blockCount (len : Nat) {b : Nat} (h : 0 < b) : b * blockCount len b = paddedLen len b := by
  have hdiv : b ∣ paddedLen len b := by
    unfold paddedLen streamPad streamRem
    have hr := Nat.mod_lt len h
    have e := Nat.div_add_mod len b
    by_cases h0 : len % b = 0
    · rw [h0]; simp [Nat.dvd_of_mod_eq_zero h0]
    · rw [Nat.mod_eq_of_lt (show b - len % b < b by omega)]
      exact ⟨len / b + 1, by rw [Nat.mul_succ]; omega⟩
  exact Nat.mul_div_cancel' hdiv

/-- A block number is one of the stream's when its address is below the padded length. -/
theorem div_lt_blockCount {len b x : Nat} (h : 0 < b) : x / b < blockCount len b ↔ x < paddedLen len b := by
  rw [Nat.div_lt_iff_lt_mul h, Nat.mul_comm, blockBytes_mul_blockCount len h]

/-- What a whole stream command leaves in `OBUF`: below the padded length the blocks, above it what stood there. -/
theorem written_streamOutput (s : State) (c : Cipher) (x : Nat) :
    (s.streamOutput c).written x =
      if x < s.padded c then (s.outBlock c (x / c.blockBytes))[x % c.blockBytes]? else s.obuf.written x := by
  rw [State.streamOutput, State.streamBlocks, written_foldl_storeBlock]
  simp only [mem_laneOrder (show 0 < s.cfg.lanes from Nat.succ_pos _), div_lt_blockCount (blockBytes_pos c)]
  rfl

theorem streamOutput_wf (s : State) (c : Cipher) (h : s.obuf.wf) : (s.streamOutput c).wf :=
  foldl_storeBlock_wf s c _ h

theorem streamOutput_below (s : State) (c : Cipher) {n : Nat} (h : s.obuf.below n) (hp : s.padded c ≤ n) :
    (s.streamOutput c).below n := by
  refine foldl_storeBlock_below s c _ h fun i hi => ?_
  rw [mem_laneOrder (show 0 < s.cfg.lanes from Nat.succ_pos _)] at hi
  calc c.blockBytes * (i + 1) ≤ c.blockBytes * blockCount s.len.toNat c.blockBytes := Nat.mul_le_mul_left _ hi
    _ = s.padded c := blockBytes_mul_blockCount _ (blockBytes_pos c)
    _ ≤ n := hp

/-- The padding is shorter than a block (R307). -/
theorem streamPad_lt (len : Nat) {b : Nat} (h : 0 < b) : streamPad len b < b := Nat.mod_lt _ h

theorem len_le_paddedLen (len b : Nat) : len ≤ paddedLen len b := Nat.le_add_right _ _

end Sys2Proof.Machine
end

