-- ==== Sys2Proof/Laws/PerInstr.lean ====
section
/-! SUPPORT. The per-instruction family: the word the encoder writes for a command stands in the command's own row of the
opcode map (R93). -/

namespace Sys2Proof.Laws

/-- The bits of the encoding that the command's row of the opcode map fixes are the row's match (R93), for every value of its
operand. For an `nlen` of 256 or more it is about the word the model gives it (log entry 10). -/
def EncodeMatchesRow.Statement (i : Instr) : Prop :=
  encode i &&& (Machine.opcodeRow i).mask = (Machine.opcodeRow i).pattern

/-- The high byte of a format K word does not depend on `nlen`. -/
theorem encodeKeyload_high (fam : BitVec 2) (nlen : Nat) :
    encodeKeyload fam nlen &&& 0xFF00#16 = 0x1000#16 ||| fam.setWidth 16 <<< 8 := by
  unfold encodeKeyload
  generalize BitVec.ofNat 8 nlen = n
  revert fam n
  decide +kernel

theorem EncodeMatchesRow.keyloadDes (nlen : Nat) : EncodeMatchesRow.Statement (.keyloadDes nlen) :=
  encodeKeyload_high 0#2 nlen

theorem EncodeMatchesRow.keyloadTdes (nlen : Nat) : EncodeMatchesRow.Statement (.keyloadTdes nlen) :=
  encodeKeyload_high 1#2 nlen

theorem EncodeMatchesRow.keyloadAes (nlen : Nat) : EncodeMatchesRow.Statement (.keyloadAes nlen) :=
  encodeKeyload_high 2#2 nlen

theorem EncodeMatchesRow.keyclr : EncodeMatchesRow.Statement .keyclr := rfl

theorem EncodeMatchesRow.enc : EncodeMatchesRow.Statement .enc := rfl

theorem EncodeMatchesRow.dec : EncodeMatchesRow.Statement .dec := rfl

theorem EncodeMatchesRow.ctrx : EncodeMatchesRow.Statement .ctrx := rfl

theorem EncodeMatchesRow.stre : EncodeMatchesRow.Statement .stre := rfl

theorem EncodeMatchesRow.strd : EncodeMatchesRow.Statement .strd := rfl

end Sys2Proof.Laws
end

