-- ==== Sys2Proof/Laws/Permute.lean ====
section
/-! SUPPORT. What the bit-permutation datapath gives, bit by bit (R150). -/

namespace Sys2Proof.Machine

/-- Shifting a bit in at the low end, counted from the most significant end. -/
theorem getMsbD_shiftConcat {w : Nat} (x : BitVec w) (b : Bool) (i : Nat) (hi : i < w) :
    (x.shiftConcat b).getMsbD i = if i + 1 < w then x.getMsbD (i + 1) else b := by
  simp only [BitVec.getMsbD, hi, decide_true, Bool.true_and, BitVec.getLsbD_shiftConcat]
  by_cases h : i + 1 < w
  · have e : w - 1 - i ≠ 0 := by omega
    have e2 : w - 1 - i - 1 = w - 1 - (i + 1) := by omega
    have e3 : w - 1 - i < w := by omega
    simp [h, e, e2, e3]
  · have e : w - 1 - i = 0 := by omega
    have e3 : 0 < w := by omega
    simp [h, e, e3]

/-- The loop of `permute` from an accumulator: the first table entries reach the top of the result, the accumulator's low
bits stand above them. -/
theorem foldl_permute_getMsbD {inW w : Nat} (x : BitVec inW) (table : List Nat) (acc : BitVec w) (i : Nat)
    (hi : i < w) :
    (table.foldl (fun a t => a.shiftConcat (x.getMsbD t)) acc).getMsbD i =
      if i + table.length < w then acc.getMsbD (i + table.length)
      else x.getMsbD ((table[i + table.length - w]?).getD inW) := by
  induction table generalizing acc with
  | nil => simp [hi]
  | cons t ts ih =>
    rw [List.foldl_cons, ih]
    simp only [List.length_cons]
    by_cases h1 : i + ts.length < w
    · rw [if_pos h1, getMsbD_shiftConcat _ _ _ h1]
      by_cases h2 : i + ts.length + 1 < w
      · rw [if_pos h2, if_pos (by omega)]; rfl
      · rw [if_neg h2, if_neg (by omega)]
        have : i + (ts.length + 1) - w = 0 := by omega
        simp [this]
    · rw [if_neg h1, if_neg (by omega)]
      obtain ⟨k, hk⟩ : ∃ k, i + ts.length - w = k := ⟨_, rfl⟩
      have : i + (ts.length + 1) - w = k + 1 := by omega
      rw [hk, this]; simp

/-- Bit `i` of a permutation's result, when the table has one entry for each result bit (R150). -/
theorem permute_getMsbD {inW : Nat} (table : List Nat) (outW : Nat) (x : BitVec inW)
    (hlen : table.length = outW) (i : Nat) (hi : i < outW) :
    (permute table outW x).getMsbD i = x.getMsbD ((table[i]?).getD inW) := by
  unfold permute
  rw [foldl_permute_getMsbD _ _ _ _ hi, if_neg (by omega)]
  have : i + table.length - outW = i := by omega
  rw [this]

/-- Two values of one width are equal when they agree from the most significant end. -/
theorem eq_of_getMsbD {w : Nat} {x y : BitVec w} (h : ∀ i, i < w → x.getMsbD i = y.getMsbD i) : x = y :=
  BitVec.eq_of_getMsbD_eq h

end Sys2Proof.Machine
end

