-- ==== Sys2Proof/Tests/Slice0.lean ====
section
/-! SUPPORT. The model's own tests: ill-formed commands, words written out from the spec's encodings, the spec's vectors (spec
file 95), and for every statement with hypotheses a concrete case that meets them, at the ends of its ranges. -/

namespace Sys2Proof.Tests

open Sys2Proof Sys2Proof.Machine

/-! ### Helpers -/

/-- The state after an outcome, `s` itself where there is none. -/
def after (s : State) : Result → State
  | .next t => t
  | _ => s

/-- The state with one host access waiting. -/
def waiting (act : HostAction) (s : State) : State := { s with hostQueue := [act] }

/-- The state with a write of `CMD` waiting. -/
def waitingCmd (w : Nat) (s : State) : State := waiting (.writeReg 0 (BitVec.ofNat 256 w)) s

/-- The state after a write of `CMD`. -/
def runCmd (w : Nat) (s : State) : State := after s (step (waitingCmd w s))

/-- The state after a write of a register other than `CMD`. -/
def setReg (n v : Nat) (s : State) : State := after s (step (waiting (.writeReg n (BitVec.ofNat 256 v)) s))

/-- The state after reset with a value in `KEYIN`. -/
def keyed (v : Nat) : State := setReg 2 v State.reset

/-! ### Well-formedness and the command word -/

theorem test_wf_refuses_des_256 : (Instr.keyloadDes 256).wellFormed = false := by decide
theorem test_wf_refuses_tdes_256 : (Instr.keyloadTdes 256).wellFormed = false := by decide
theorem test_wf_refuses_aes_256 : (Instr.keyloadAes 256).wellFormed = false := by decide
theorem test_wf_admits_255 : (Instr.keyloadAes 255).wellFormed = true := by decide

/-- R90, R91: op 1, zero 0, fam 0, `nlen` 14. -/
theorem test_decode_keyloadDes : decodeWord 0b0001000000001110#16 = .ok (.keyloadDes 14) := by decide
/-- R90, R91: fam 1, `nlen` 42. -/
theorem test_decode_keyloadTdes : decodeWord 0b0001000100101010#16 = .ok (.keyloadTdes 42) := by decide
/-- R90, R91: fam 2, `nlen` 255. -/
theorem test_decode_keyloadAes : decodeWord 0b0001001011111111#16 = .ok (.keyloadAes 255) := by decide
theorem test_decode_keyclr : decodeWord 0b0010000000000000#16 = .ok .keyclr := by decide
theorem test_decode_enc : decodeWord 0b0011000000000000#16 = .ok .enc := by decide
theorem test_decode_dec : decodeWord 0b0100000000000000#16 = .ok .dec := by decide
theorem test_decode_ctrx : decodeWord 0b0101000000000000#16 = .ok .ctrx := by decide
theorem test_decode_stre : decodeWord 0b0110000000000000#16 = .ok .stre := by decide
theorem test_decode_strd : decodeWord 0b0111000000000000#16 = .ok .strd := by decide

/-- The words of V61. -/
theorem test_decode_refuses_v61 :
    ∀ w ∈ [0x0000, 0x8000, 0xF000, 0x1300, 0x1420, 0x1820, 0x2001, 0x3001, 0x4800, 0x5555, 0x6001, 0x7FFF],
      decodeTableWord 16 w = none := by decide

/-- V61: the word stays in `CMD` and `STATUS` reads 00000403. -/
theorem test_illegal_word_v61 :
    let t := runCmd 0x4800 State.reset
    t.cmd = 0x4800#16 ∧ t.status = 0x00000403#32 := by decide

/-- The host's way of running a table word: one step after `withFetchWord` it has run. -/
theorem test_fetch_runs_word :
    (after State.reset (step (State.reset.withFetchWord 16 0x121F))).status = 0x00000101#32 := by decide

/-! ### Key loads (V12, V25, V30, V60) -/

/-- The key of V12, V50 and V51 in `KEYIN`. -/
def desKeyed : State := keyed 0x133457799BBCDF00000000000000000000000000000000000000000000000000
/-- The instance of V12, V50 and V51. -/
def desLoaded : State := runCmd 0x100E desKeyed
/-- The instance of V25. -/
def tdesLoaded : State :=
  runCmd 0x112A (keyed 0x0123456789ABCD23456789ABCDEF456789ABCDEF010000000000000000000000)
/-- The instance of V1 and V30. -/
def aesLoaded : State :=
  runCmd 0x1220 (keyed 0x2b7e151628aed2a6abf7158809cf4f3c00000000000000000000000000000000)

theorem test_keyloadDes_v12 :
    desLoaded.alg = .des ∧ desLoaded.dk[0][0] = 0x7926C9DB49E5#48 ∧ desLoaded.dk[0][15] = 0x0B028FBC7072#48 := by
  decide +kernel
theorem test_keyloadDes_v60 : (runCmd 0x100D State.reset).status = 0x00000101#32 := by decide
theorem test_keyloadTdes_v25 :
    tdesLoaded.dk[0][0] = 0x692641216A26#48 ∧ tdesLoaded.dk[1][0] = 0x0B02679B49A5#48 ∧
      tdesLoaded.dk[2][15] = 0xA691050A16B1#48 := by decide +kernel
theorem test_keyloadTdes_v60 : (runCmd 0x1129 State.reset).status = 0x00000101#32 := by decide
theorem test_keyloadAes_v30 :
    ofAesBlock aesLoaded.rka[10] = 0xd014f9a8c9ee2589e13f0cc8b6630ca6#128 ∧
      ofAesBlock aesLoaded.rka[19] = 0x2b3708a7f262d405bc3ebdbf4b617d62#128 := by decide +kernel
theorem test_keyloadAes_v60 : (runCmd 0x12FF State.reset).status = 0x00000101#32 := by decide

/-- P1, steps 8 and 9: `KEYIN` reads 0 and `ALG` is NONE. -/
theorem test_keyclr_p1 :
    (runCmd 0x2000 desLoaded).status = 0#32 ∧ readHostReg (runCmd 0x2000 desLoaded) 2 = 0#256 := by decide +kernel

/-! ### Block commands (V1, V21, V25, V50) -/

/-- V21, with the high half of `DIN` set: it is ignored, and the high half of `DOUT` is 0. -/
theorem test_enc_v21 :
    (runCmd 0x3000 (setReg 3 0xDEADBEEF000000000123456789ABCDEF desLoaded)).dout = 0x146CA5091205B2A5#128 := by
  decide +kernel
/-- V1. -/
theorem test_enc_v1 :
    (runCmd 0x3000 (setReg 3 0x6bc1bee22e409f96e93d7e117393172a aesLoaded)).dout =
      0x3ad77bb40d7a3660a89ecaf32466ef97#128 := by decide +kernel
/-- V1. -/
theorem test_dec_v1 :
    (runCmd 0x4000 (setReg 3 0x3ad77bb40d7a3660a89ecaf32466ef97 aesLoaded)).dout =
      0x6bc1bee22e409f96e93d7e117393172a#128 := by decide +kernel
/-- V25. -/
theorem test_dec_v25 :
    (runCmd 0x4000 (setReg 3 0xD0A6A2AB674AC16D tdesLoaded)).dout = 0x5468652071756663#128 := by decide +kernel
/-- V50, first row. -/
theorem test_ctrx_v50_des :
    (runCmd 0x5000 (setReg 3 0x1122334455667788 (setReg 6 5 (setReg 5 0x0F1E2D3C4B5A6978 desLoaded)))).dout =
      0x82F0478D08BDB334#128 := by decide +kernel
/-- V50, fifth row: the index meets the last 8 bytes of the nonce. -/
theorem test_ctrx_v50_aes :
    (runCmd 0x5000 (setReg 6 0x0102030405060708 (setReg 5 0xf0f1f2f3f4f5f6f7f8f9fafbfcfdfeff aesLoaded))).dout =
      0x9ede31c2226619601db1f5ccc2d8cebb#128 := by decide +kernel

/-! ### Stream commands (V51, V52) -/

/-- The instance and nonce of V51 with bytes in `IBUF` and a length. -/
def streaming (bytes : List Byte) (len rem : Nat) : State :=
  { desLoaded with
    nonce := 0x0F1E2D3C4B5A6978#128
    ibuf := Memory.storeBytes [] 0 bytes
    len := BitVec.ofNat 32 len
    rem := BitVec.ofNat 8 rem }

/-- V51, the row of length 1: `REM`, `PAD`, `OLEN` and `OBUF`. -/
theorem test_stre_v51 :
    let t := runCmd 0x6000 (streaming [0x4E#8] 1 0)
    (t.rem, t.pad, t.olen) = (1#8, 7#8, 8#32) ∧
      t.memRead .obuf 0 8 = [0xF9#8, 0x8C#8, 0x3F#8, 0x51#8, 0x7E#8, 0xEB#8, 0x14#8, 0xAA#8] := by decide +kernel

/-- V52: a length that is no multiple of the block size. -/
theorem test_strd_v52 :
    let t := runCmd 0x7000
      (streaming [0xF9#8, 0xE3#8, 0x48#8, 0x71#8, 0x17#8, 0x98#8, 0x34#8, 0xDE#8, 0x5D#8] 9 0)
    (t.pad, t.olen) = (0#8, 16#32) ∧
      t.memRead .obuf 6 4 = [0x20#8, 0x74#8, 0x68#8, 0xA1#8] := by decide +kernel

/-- R311: a remainder that no block of the instance leaves. -/
theorem test_strd_bad_operand : (runCmd 0x7000 (streaming [] 8 8)).status = 0x00001015#32 := by decide +kernel

/-! ### Single steps of the datapaths (V2, V7, V20, V40) -/

/-- V2, first row. -/
theorem test_ip_v2 : permute ipTable 64 0x0123456789ABCDEF#64 = 0xCC00CCFFF0AAF0AA#64 := by decide +kernel
/-- V7, third row. -/
theorem test_substitute_v7 : substitute 0x6117BA866527#48 = 0x5C82B597#32 := by decide +kernel
/-- V20, published: the container is not that of a 56-bit key. -/
theorem test_des_v20 :
    desEncrypt 0x0123456789ABCDEF#64 (desDerive 0x133457799BBCDFF1#64) = 0x85E813540F0AB405#64 := by decide +kernel
/-- V40. -/
theorem test_mixColumn_v40 : mixColumn ⟨0xdb, 0x13, 0x53, 0x45⟩ = ⟨0x8e, 0x4d, 0xa1, 0xbc⟩ := by decide +kernel
/-- R33: both letter cases, and an odd number of digits passed with its true length. -/
theorem test_stage_key : stageKeyString ['a', 'B', '1'] = some (0xAB1#256 <<< 244, 3) := by decide +kernel

/-! ### States that meet the invariant -/

/-- A DES instance with the container of V20, a block in `DIN`, one byte in each buffer. -/
def desState : State :=
  { State.reset with
    alg := .des
    dk := #v[desDerive 0x133457799BBCDFF1#64, zeroSchedule, zeroSchedule]
    din := 0x0123456789ABCDEF#128
    ibuf := [(0, 0x4E#8)]
    obuf := [(63, 0x11#8)] }

/-- A Triple-DES instance. -/
def tdesState : State :=
  { State.reset with
    alg := .tdes
    dk := #v[desDerive 1#64, desDerive 2#64, desDerive 4#64] }

/-- An AES instance with the key of V1, by `ALG` and number of key words. -/
def aesState (alg : Alg) (nk : Nat) : State :=
  { State.reset with alg := alg, rka := aesDeriveRka nk fun j => BitVec.ofNat 8 (17 * j + 1) }

theorem inv_desState : Inv desState where
  keySlot := by constructor <;> simp [desState, Alg.aesRounds, State.reset, resetState]
  ibufWf := by decide
  obufWf := by decide
  ibufBelow := by decide
  obufBelow := by decide
  errLogged := by decide
  olenBound := by decide
  padBound := by decide

/-- What there is to check of a round-key array, as one bounded question. -/
theorem roundKeysOf_of_entries (rk : RoundKeys) (nr : Nat)
    (h : ∀ k, k < 28 →
      (1 ≤ k ∧ k < nr → keyAt rk (nr + k) = invMixColumns (keyAt rk (nr - k))) ∧
      (2 * nr ≤ k → keyAt rk k = zeroAesBlock)) (hnr : nr ≤ 28) : RoundKeysOf rk nr where
  decryptHalf k h1 h2 := (h k (by omega)).1 ⟨h1, h2⟩
  unused k hk h1 := (h k h1).2 hk

theorem inv_tdesState : Inv tdesState where
  keySlot := by constructor <;> simp [tdesState, Alg.aesRounds, State.reset, resetState]
  ibufWf := List.Pairwise.nil
  obufWf := List.Pairwise.nil
  ibufBelow := by simp [tdesState, State.reset, resetState]
  obufBelow := by simp [tdesState, State.reset, resetState]
  errLogged := by decide
  olenBound := by decide
  padBound := by decide

theorem roundKeysOf_aes128 : RoundKeysOf (aesState .aes128 4).rka 10 :=
  roundKeysOf_of_entries _ _ (by decide +kernel) (by decide)

/-- The array of zeros, with every number of rounds. -/
theorem roundKeysOf_zero (nr : Nat) (h : nr ∈ [10, 12, 14]) : RoundKeysOf zeroRoundKeys nr := by
  have : nr = 10 ∨ nr = 12 ∨ nr = 14 := by simpa using h
  refine roundKeysOf_of_entries _ _ (fun k hk => ?_) (by omega)
  have key : ∀ n, keyAt zeroRoundKeys n = zeroAesBlock := fun n => by
    by_cases h : n < 28 <;> simp [keyAt, zeroRoundKeys, h]
  have hz : zeroAesBlock = invMixColumns zeroAesBlock := by decide +kernel
  rw [key, key, key]
  exact ⟨fun _ => hz, fun _ => rfl⟩

theorem inv_aesState : Inv (aesState .aes128 4) where
  keySlot :=
    { dk0 := fun _ _ => by simp [aesState, State.reset, resetState, zeroDk]
      dk1 := fun _ => by simp [aesState, State.reset, resetState, zeroDk]
      dk2 := fun _ => by simp [aesState, State.reset, resetState, zeroDk]
      rkaUnused := by simp [aesState, Alg.aesRounds]
      rkaUsed := fun nr h => by
        have : nr = 10 := by simpa [aesState, Alg.aesRounds, eq_comm] using h
        rw [this]; exact roundKeysOf_aes128 }
  ibufWf := List.Pairwise.nil
  obufWf := List.Pairwise.nil
  ibufBelow := by simp [aesState, State.reset, resetState]
  obufBelow := by simp [aesState, State.reset, resetState]
  errLogged := by decide
  olenBound := by decide
  padBound := by decide

/-! ### Witnesses: for each statement with hypotheses, a case that meets them -/

theorem witness_DecodeEncodeRoundTrip :
    ∀ i ∈ [Instr.keyloadDes 0, .keyloadTdes 42, .keyloadAes 255, .strd], i.wellFormed = true := by decide

theorem witness_EncodeDecodeRoundTrip : decodeWord 0x10FF#16 = .ok (.keyloadDes 255) := by decide

theorem witness_DecoderFollowsTheOpcodeMap :
    (Instr.keyloadAes 255 ∈ commandsOf 0x12FF#16 ∧ selectsRow 0x12FF#16 (.keyloadAes 255) = true) ∧
    ∀ n ∈ [0x0FFF, 0x1300, 0x8000, 0x7001],
      ∀ i ∈ commandsOf (BitVec.ofNat 16 n), selectsRow (BitVec.ofNat 16 n) i = false := by decide +kernel

theorem witness_IllegalWordRunsNothing :
    (waitingCmd 0x0FFF desState).hostQueue = .writeReg 0 0x0FFF#256 :: [] ∧
    ∀ n ∈ [0x0000, 0x0FFF, 0x8000, 0xFFFF, 0x1300, 0x1400, 0x1C00, 0x2001, 0x7FFF],
      let w := ((BitVec.ofNat 256 n).setWidth 16).toNat
      w / 4096 = 0 ∨ 8 ≤ w / 4096 ∨
        (w / 4096 = 1 ∧ (w / 256 % 4 = 3 ∨ w / 1024 % 4 ≠ 0)) ∨
        (2 ≤ w / 4096 ∧ w / 4096 ≤ 7 ∧ w % 4096 ≠ 0) := by decide +kernel

theorem witness_StepRunsTheDecodedCommand :
    (waitingCmd 0x3000 desState).hostQueue = .writeReg 0 0x3000#256 :: [] ∧
    decodeWord ((0x3000#256).setWidth 16) = .ok .enc := by decide

/-- Each number of R25 and the first that does not exist. -/
theorem witness_RegisterReadReturnsValue :
    ∀ n ≤ 11, (waiting (.readReg n) desState).hostQueue = .readReg n :: [] := by decide

theorem witness_RegisterWriteStoresValue :
    ∀ n ∈ [1, 2, 3, 4, 5, 6, 7, 8, 9, 10, 11],
      (waiting (.writeReg n (BitVec.allOnes 256)) desState).hostQueue = .writeReg n (BitVec.allOnes 256) :: [] ∧
        n ≠ 0 := by decide

/-- The last address that exists, and the first that does not. -/
theorem witness_IbufWriteChangesOneByte :
    (waiting (.writeIbuf 63 0xAA#8) desState).hostQueue = .writeIbuf 63 0xAA#8 :: [] ∧ 63 < desState.cfg.bufBytes ∧
    (waiting (.writeIbuf 64 0xAA#8) desState).hostQueue = .writeIbuf 64 0xAA#8 :: [] ∧
      desState.cfg.bufBytes ≤ 64 := by decide

theorem witness_BufferReadReturnsByte :
    (waiting (.readIbuf 63) desState).hostQueue = .readIbuf 63 :: [] ∧
    (waiting (.readObuf 64) desState).hostQueue = .readObuf 64 :: [] := by decide

theorem witness_ResetGivesTheResetValues :
    (waiting .reset desState).hostQueue = .reset :: [] := by decide

theorem witness_NoInstanceMeansNoKey :
    (∀ i ∈ [Instr.enc, .dec, .ctrx, .stre, .strd], i ∈ [Instr.enc, .dec, .ctrx, .stre, .strd]) ∧
      State.reset.alg = .none := by decide

theorem witness_FailingCommandChangesOnlyStatus :
    (waitingCmd 0x120E desState).hostQueue = .writeReg 0 0x120E#256 :: [] ∧
    ∃ t, step (waitingCmd 0x120E desState) = .next t ∧ t.err ≠ .ok := ⟨by decide, _, rfl, by decide⟩

theorem witness_SuccessKeepsTheErrorLog :
    (waitingCmd 0x2000 desState).hostQueue = .writeReg 0 0x2000#256 :: [] ∧
    ∃ t, step (waitingCmd 0x2000 desState) = .next t ∧ t.err = .ok := ⟨by decide, _, rfl, by decide⟩

theorem witness_ErrorLogIsSticky :
    (∃ t, step (waitingCmd 0x0000 desState) = .next t) ∧
      (waitingCmd 0x0000 desState).hostQueue.head? ≠ some .reset := ⟨⟨_, rfl⟩, by decide⟩

theorem witness_NoCommandReadsErrOrElog : ∃ t, exec .keyclr desState = .next t := ⟨_, rfl⟩

/-- The five ways `STRD` can end, each at the end of its range. -/
theorem witness_StrdReportsTheFirstError :
    ∀ p ∈ [(State.reset, ErrCode.noKey), (streaming [] 8 8, .badOperand), (streaming [] 0 1, .badOperand),
        (streaming [] 65 7, .bufferOverflow), (streaming [] 0 0, .ok)],
      (after p.1 (exec .strd p.1)).err = p.2 := by decide +kernel

theorem witness_KeyloadDesBuildsInstance : ∀ n ∈ [0, 13, 15, 255], n < 256 ∧ n ≠ 14 := by decide

theorem witness_KeyloadTdesBuildsInstance : ∀ n ∈ [0, 41, 43, 255], n < 256 ∧ n ≠ 42 := by decide

theorem witness_KeyloadAesBuildsInstance :
    (∀ p ∈ [(32, Alg.aes128), (48, .aes192), (64, .aes256)], p ∈ [(32, Alg.aes128), (48, .aes192), (64, .aes256)]) ∧
    ∀ n ∈ [0, 31, 33, 47, 49, 63, 65, 255], n < 256 ∧ n ≠ 32 ∧ n ≠ 48 ∧ n ≠ 64 := by decide

theorem witness_OnlyKeyCommandsChangeTheKeySlot : ∃ t, step (waitingCmd 0x2000 desState) = .next t := ⟨_, rfl⟩

theorem witness_CommandsWriteOnlyTheirSpaces :
    (∃ t, exec .keyclr desState = .next t) ∧ (∃ t, exec (.keyloadDes 14) desState = .next t) ∧
      (∃ t, exec .enc desState = .next t) ∧ (∃ t, exec .dec desState = .next t) ∧
      (∃ t, exec .ctrx desState = .next t) ∧ (∃ t, exec .stre desState = .next t) ∧
      ∃ t, exec .strd desState = .next t :=
  ⟨⟨_, rfl⟩, ⟨_, rfl⟩, ⟨_, rfl⟩, ⟨_, rfl⟩, ⟨_, rfl⟩, ⟨_, rfl⟩, ⟨_, rfl⟩⟩

/-- The first and the last entry of `IP`. -/
theorem witness_PermuteMovesEachBit :
    ipTable.length = 64 ∧ (∀ k ∈ ipTable, k < 64) ∧ ipTable[0]? = some 57 ∧ ipTable[63]? = some 6 := by decide

theorem witness_ExpansionTakesOverlappingChunks :
    (0 < 8 ∧ 0 < 6) ∧ (7 < 8 ∧ 5 < 6) := by decide

/-- The first and the last of the key bits that reach the subkeys. -/
theorem witness_ZeroExtendedKeyUsesFortyNineBits : (1 < 56 ∧ 1 % 8 ≠ 0) ∧ (55 < 56 ∧ 55 % 8 ≠ 0) := by decide

theorem witness_SubkeysComeFromRotatedHalves : 0 < 16 ∧ 15 < 16 := by decide

theorem witness_SubstituteReadsTheDirectRoms : 0 < 8 ∧ 7 < 8 := by decide

theorem witness_SboxRowsArePermutations : (0 < 8 ∧ 0 < 4) ∧ (7 < 8 ∧ 3 < 4) := by decide

theorem witness_PalindromicScheduleMergesDirections :
    ∀ (n : Nat) (h : n < 16), zeroSchedule[n] = zeroSchedule[15 - n] := by simp [zeroSchedule]

theorem witness_AesSboxIsAffineOfInverse : (1#8 : Byte) ≠ 0 ∧ (0xFF#8 : Byte) ≠ 0 := by decide

theorem witness_AesExpansionRecurrence :
    (4 ∈ [4, 6, 8] ∧ 0 < 4 ∧ 3 < 4 ∧ 4 ≤ 4 ∧ 43 < 4 * (4 + 7)) ∧ (8 ∈ [4, 6, 8] ∧ 8 ≤ 12 ∧ 59 < 4 * (8 + 7)) := by
  decide

theorem witness_AesRoundKeyArrayEntries :
    (4 ∈ [4, 6, 8] ∧ 10 ≤ 4 + 6 ∧ 1 < 4 + 6 ∧ 9 < 4 + 6 ∧ 2 * (4 + 6) ≤ 20 ∧ 20 < 28) ∧
      (6 ∈ [4, 6, 8] ∧ 11 < 6 + 6 ∧ 2 * (6 + 6) ≤ 24 ∧ 27 < 28) ∧ 8 ∈ [4, 6, 8] ∧ 13 < 8 + 6 := by decide

theorem witness_AesDirectionsAreInverse :
    10 ∈ [10, 12, 14] ∧ DecryptHalfOf (aesState .aes128 4).rka 10 := ⟨by decide, roundKeysOf_aes128.decryptHalf⟩

theorem witness_EquivalentInverseEqualsDirectInverse :
    (10 ∈ [10, 12, 14] ∧ DecryptHalfOf (aesState .aes128 4).rka 10) ∧
      14 ∈ [10, 12, 14] ∧ DecryptHalfOf zeroRoundKeys 14 :=
  ⟨⟨by decide, roundKeysOf_aes128.decryptHalf⟩, by decide, (roundKeysOf_zero 14 (by decide)).decryptHalf⟩

/-- Each kind of instance, for `ENC`, `DEC` and `CTRX`. -/
theorem witness_EncWritesTheCiphertext :
    State.reset.alg = .none ∧ desState.alg = .des ∧ tdesState.alg = .tdes ∧
      (aesState .aes128 4).alg.aesRounds = some 10 ∧ (aesState .aes256 8).alg.aesRounds = some 14 := by decide

theorem witness_DecWritesThePlaintext :
    State.reset.alg = .none ∧ desState.alg = .des ∧ tdesState.alg = .tdes ∧
      (aesState .aes128 4).alg.aesRounds = some 10 ∧ (aesState .aes192 6).alg.aesRounds = some 12 := by decide

theorem witness_CtrxXorsTheKeystream :
    State.reset.alg = .none ∧ desState.alg = .des ∧ tdesState.alg = .tdes ∧
      (aesState .aes128 4).alg.aesRounds = some 10 ∧ (aesState .aes256 8).alg.aesRounds = some 14 := by decide

theorem witness_BlockDirectionsAreInverse :
    (Inv desState ∧ desState.cipher = some (.des desState.dk[0])) ∧
      (Inv tdesState ∧ tdesState.cipher = some (.tdes tdesState.dk[0] tdesState.dk[1] tdesState.dk[2])) ∧
      Inv (aesState .aes128 4) ∧ (aesState .aes128 4).cipher = some (.aes (aesState .aes128 4).rka 10) :=
  ⟨⟨inv_desState, rfl⟩, ⟨inv_tdesState, rfl⟩, inv_aesState, rfl⟩

theorem witness_EncThenDecGivesTheBlockBack :
    (Inv desState ∧ desState.alg ≠ .none) ∧ (Inv tdesState ∧ tdesState.alg ≠ .none) ∧ Inv (aesState .aes128 4) ∧ (aesState .aes128 4).alg ≠ .none :=
  ⟨⟨inv_desState, by decide⟩, ⟨inv_tdesState, by decide⟩, inv_aesState, by decide⟩

theorem witness_CtrxIsItsOwnInverse : desState.alg ≠ .none ∧ tdesState.alg ≠ .none ∧ (aesState .aes128 4).alg ≠ .none := by decide

theorem witness_PaddedLengthIsWholeBlocks : (8 = 8 ∨ 8 = 16) ∧ (16 = 8 ∨ 16 = 16) := by decide

/-- An empty input and one that fills the buffer; the first and the last byte of the stream, and the first above it. -/
theorem witness_StreEncryptsThePaddedInput :
    (∃ c, desState.cipher = some c) ∧ 8 = algBlockBytes desState.alg ∧
    paddedLen desState.len.toNat 8 ≤ desState.cfg.bufBytes ∧
    (let s := { desState with len := 64#32 }
     (∃ c, s.cipher = some c) ∧ paddedLen s.len.toNat 8 ≤ s.cfg.bufBytes ∧
      0 < blockCount s.len.toNat 8 ∧ 7 < blockCount s.len.toNat 8 ∧ 7 < 8 ∧ paddedLen s.len.toNat 8 ≤ 64) :=
  ⟨⟨_, rfl⟩, by decide, by decide, ⟨_, rfl⟩, by decide, by decide, by decide, by decide, by decide⟩

theorem witness_StreRefusesOverflow :
    let s := { desState with len := 65#32 }
    s.alg ≠ .none ∧ s.cfg.bufBytes < paddedLen s.len.toNat (algBlockBytes s.alg) := by decide

/-- No input with `REM` = 0, and a full buffer with the largest `REM`. -/
theorem witness_StrdDecryptsAndCuts :
    (let s := { desState with len := 0#32, rem := 0#8 }
     (∃ c, s.cipher = some c) ∧ 8 = algBlockBytes s.alg ∧ s.rem.toNat < 8 ∧ (s.len.toNat = 0 → s.rem.toNat = 0) ∧
      paddedLen s.len.toNat 8 ≤ s.cfg.bufBytes) ∧
    (let s := { desState with len := 64#32, rem := 7#8 }
     (∃ c, s.cipher = some c) ∧ 8 = algBlockBytes s.alg ∧ s.rem.toNat < 8 ∧ (s.len.toNat = 0 → s.rem.toNat = 0) ∧
      paddedLen s.len.toNat 8 ≤ s.cfg.bufBytes ∧ 7 < blockCount s.len.toNat 8 ∧ 7 < 8) :=
  ⟨⟨⟨_, rfl⟩, by decide, by decide, by decide, by decide⟩,
   ⟨_, rfl⟩, by decide, by decide, by decide, by decide, by decide, by decide⟩

theorem witness_LaneOrderCannotBeObserved :
    let s := { desState with len := 17#32 }
    s.obuf.wf ∧ [2, 0, 1].Perm (List.range (blockCount s.len.toNat 8)) ∧
      (∃ t, exec .stre s = .next t) ∧ ∃ t, exec .strd s = .next t :=
  ⟨by decide, by decide, ⟨_, rfl⟩, ⟨_, rfl⟩⟩

/-- One byte of input for `STRE`. -/
def oneByte : State := { desState with len := 1#32 }
/-- Its instance. -/
def oneByteCipher : Cipher := .des oneByte.dk[0]
/-- What `STRE` leaves from it. -/
def oneByteStreamed : State :=
  { oneByte with obuf := oneByte.streamOutput oneByteCipher, rem := 1#8, pad := 7#8, olen := 8#32, err := .ok }
/-- And the host's copy of the output to the input. -/
def oneByteCopied : State :=
  { oneByteStreamed with ibuf := oneByteStreamed.obuf, len := oneByteStreamed.olen }

theorem oneByteStreamed_written (a : Nat) (h : a < 8) : ∃ v, oneByteStreamed.obuf.written a = some v := by
  have hp : oneByte.padded oneByteCipher = 8 := by decide
  have hl : a % 8 < (oneByte.outBlock oneByteCipher (a / 8)).length := by
    rw [outBlock_length]; exact Nat.mod_lt a (show 0 < 8 by decide)
  refine ⟨(oneByte.outBlock oneByteCipher (a / 8))[a % 8],
    (written_streamOutput oneByte oneByteCipher a).trans ?_⟩
  rw [hp, if_pos h]
  exact List.getElem?_eq_getElem hl

theorem witness_StreamRoundTrip :
    let s := oneByte
    let t := oneByteStreamed
    let u := oneByteCopied
    s.alg ≠ .none ∧ 8 = algBlockBytes s.alg ∧ paddedLen s.len.toNat 8 ≤ s.cfg.bufBytes ∧ exec .stre s = .next t ∧
    u.alg = t.alg ∧ u.dk = t.dk ∧ u.rka = t.rka ∧ u.nonce = t.nonce ∧ u.cfg = t.cfg ∧ u.rem = t.rem ∧ u.len = t.olen ∧
    ∀ a, a < t.olen.toNat → u.bufByte .ibuf a = t.bufByte .obuf a := by
  refine ⟨by decide, by decide, by decide, rfl, rfl, rfl, rfl, rfl, rfl, rfl, rfl, fun a ha => ?_⟩
  obtain ⟨v, hv⟩ := oneByteStreamed_written a ha
  rw [bufByte_obuf, hv, bufByte_ibuf, show oneByteCopied.ibuf = oneByteStreamed.obuf from rfl, hv]
  rfl

theorem witness_StreAgreesWithCtrx :
    let s := { desState with len := 64#32 }
    let t := after s (exec .stre s)
    s.alg ≠ .none ∧ 8 = algBlockBytes s.alg ∧ exec .stre s = .next t ∧ t.err = .ok ∧ 0 < blockCount s.len.toNat 8 ∧
      7 < blockCount s.len.toNat 8 ∧ 7 < 8 :=
  ⟨by decide, by decide, rfl, rfl, by decide, by decide, by decide⟩

theorem witness_EveryStepKeepsInv : Inv desState ∧ ∃ t, step desState = .next t := ⟨inv_desState, _, rfl⟩

theorem witness_HostCannotReachTheKeyStores :
    let s := waiting (.readReg 2) desState
    s.hostQueue = .readReg 2 :: [] ∧ (∀ v, HostAction.readReg 2 ≠ .writeReg 0 v) ∧ HostAction.readReg 2 ≠ .reset ∧
      ∃ t, step s = .next t := ⟨rfl, fun _ => by simp, by decide, _, rfl⟩

theorem witness_StagedKeyHoldsEachDigit : 0 < 64 ∧ 63 < 64 := by decide

end Sys2Proof.Tests
end

/-! ## The AES round-key array, entry by entry (R247, R42) -/

namespace Sys2Proof.Machine

theorem roundKeyEntry_of_le (ws : List AesWord) {nr k : Nat} (h : k ≤ nr) :
    roundKeyEntry ws nr k = forwardKey ws k := if_pos h

/-- The transformed keys stand in reverse order after the forward ones. -/
theorem roundKeyEntry_add (ws : List AesWord) {nr k : Nat} (hk : 1 ≤ k) (hnr : k < nr) :
    roundKeyEntry ws nr (nr + k) = invMixColumns (forwardKey ws (nr - k)) := by
  have hpast : ¬ nr + k ≤ nr := by omega
  have hused : nr + k < 2 * nr := by omega
  have hmirror : 2 * nr - (nr + k) = nr - k := by omega
  rw [roundKeyEntry, if_neg hpast, if_pos hused, hmirror]

theorem roundKeyEntry_of_ge (ws : List AesWord) {nr k : Nat} (hnr : 0 < nr) (hk : 2 * nr ≤ k) :
    roundKeyEntry ws nr k = zeroAesBlock := by
  rw [roundKeyEntry, if_neg (by omega), if_neg (by omega)]

theorem keyAt_aesDeriveRka (nk : Nat) (key : Nat → Byte) {k : Nat} (hk : k < 28) :
    keyAt (aesDeriveRka nk key) k = roundKeyEntry (aesExpand nk key) (roundsOf nk) k := by
  simp [keyAt, aesDeriveRka, hk]

/-- Up to 8 key words the forward keys all lie within the 28 entries. -/
theorem keyAt_aesDeriveRka_forward {nk r : Nat} (key : Nat → Byte) (hnk : nk ≤ 8) (hr : r ≤ roundsOf nk) :
    keyAt (aesDeriveRka nk key) r = forwardKey (aesExpand nk key) r := by
  have hbound : r < 28 := by unfold roundsOf at hr; omega
  rw [keyAt_aesDeriveRka nk key hbound, roundKeyEntry_of_le _ hr]

/-- Up to 8 key words the transformed keys all lie within the 28 entries. -/
theorem keyAt_aesDeriveRka_transformed {nk k : Nat} (key : Nat → Byte) (hnk : nk ≤ 8) (hk : 1 ≤ k)
    (hnr : k < roundsOf nk) :
    keyAt (aesDeriveRka nk key) (roundsOf nk + k) =
      invMixColumns (forwardKey (aesExpand nk key) (roundsOf nk - k)) := by
  have hbound : roundsOf nk + k < 28 := by unfold roundsOf at hnr ⊢; omega
  rw [keyAt_aesDeriveRka nk key hbound, roundKeyEntry_add _ hk hnr]

theorem keyAt_aesDeriveRka_unused {nk k : Nat} (key : Nat → Byte) (hk : 2 * roundsOf nk ≤ k) (hbound : k < 28) :
    keyAt (aesDeriveRka nk key) k = zeroAesBlock := by
  have hpos : 0 < roundsOf nk := Nat.succ_pos _
  rw [keyAt_aesDeriveRka nk key hbound, roundKeyEntry_of_ge _ hpos hk]

/-- A derived array has both halves of its keys, and zeros after them (R247, R42). -/
theorem roundKeysOf_aesDeriveRka {nk : Nat} (key : Nat → Byte) (hnk : nk ≤ 8) :
    RoundKeysOf (aesDeriveRka nk key) (roundsOf nk) where
  decryptHalf k hk hnr := by
    rw [keyAt_aesDeriveRka_transformed key hnk hk hnr,
      keyAt_aesDeriveRka_forward key hnk (Nat.sub_le _ _)]
  unused _ hk hbound := keyAt_aesDeriveRka_unused key hk hbound

/-- Settles O41: each range of the array is one branch of `roundKeyEntry`. -/
theorem aesRoundKeyArrayEntries : Obligations.AesRoundKeyArrayEntries := by
  intro nk key hmem
  have hnk : nk ≤ 8 := by
    simp only [List.mem_cons, List.not_mem_nil, or_false] at hmem
    omega
  exact ⟨fun _ hr => keyAt_aesDeriveRka_forward key hnk hr,
    fun _ hk hnr => keyAt_aesDeriveRka_transformed key hnk hk hnr,
    fun _ hk hbound => keyAt_aesDeriveRka_unused key hk hbound⟩

end Sys2Proof.Machine

/-! ## The staged key (R28, R33) -/

namespace Sys2Proof.Machine

/-- One digit shifted in at the low end of the key being staged. -/
def pushDigit (acc : BitVec 256) (d : BitVec 4) : BitVec 256 := (acc <<< 4) ||| d.setWidth 256

/-- The digit just shifted in stands lowest. -/
theorem extract_pushDigit_last (acc : BitVec 256) (d : BitVec 4) : (pushDigit acc d).extractLsb' 0 4 = d := by
  apply BitVec.eq_of_getLsbD_eq
  intro i hi
  have h256 : i < 256 := by omega
  simp [pushDigit, hi, h256]

/-- Every digit that still fits moves up by one place. -/
theorem extract_pushDigit_above (acc : BitVec 256) (d : BitVec 4) {p : Nat} (hp : p + 8 ≤ 256) :
    (pushDigit acc d).extractLsb' (p + 4) 4 = acc.extractLsb' p 4 := by
  apply BitVec.eq_of_getLsbD_eq
  intro i hi
  have hfit : p + 4 + i < 256 := by omega
  have hfit' : p + i < 256 := by omega
  have hlow : ¬ p + 4 + i < 4 := by omega
  have hback : p + 4 + i - 4 = p + i := by omega
  have hd : d.getLsbD (p + 4 + i) = false := BitVec.getLsbD_of_ge _ _ (by omega)
  simp [pushDigit, hi, hfit, hfit', hlow, hback, hd]

/-- Of `m` digits shifted in, digit `n` stands `m - 1 - n` places above the low end. -/
theorem extract_foldl_pushDigit (digit : Nat → BitVec 4) {m n : Nat} (hm : m ≤ 64) (hn : n < m) :
    ((List.range m).foldl (fun acc j => pushDigit acc (digit j)) 0#256).extractLsb' (4 * (m - 1 - n)) 4 =
      digit n := by
  induction m with
  | zero => omega
  | succ m ih =>
    rw [List.range_succ, List.foldl_append, List.foldl_cons, List.foldl_nil]
    by_cases hlast : n = m
    · have hplace : 4 * (m + 1 - 1 - n) = 0 := by omega
      rw [hplace, extract_pushDigit_last, hlast]
    · have hplace : 4 * (m + 1 - 1 - n) = 4 * (m - 1 - n) + 4 := by omega
      rw [hplace, extract_pushDigit_above _ _ (by omega), ih (by omega) (by omega)]

/-- Settles O60, by induction on the number of digits shifted in. -/
theorem stagedKeyHoldsEachDigit : Obligations.StagedKeyHoldsEachDigit := by
  intro digits n hn
  have hplace : 252 - 4 * n = 4 * (64 - 1 - n) := by omega
  rw [hplace]
  exact extract_foldl_pushDigit (fun j => (digits[j]?).getD 0#4) le_rfl hn

end Sys2Proof.Machine

/-! ## What a step does with each host access (R25, R30 to R32) -/

namespace Sys2Proof.Machine

/-! ### Register reads -/

theorem hostReg_of_ge {n : Nat} (h : 11 ≤ n) : hostReg n = none := by
  obtain ⟨k, rfl⟩ := Nat.exists_eq_add_of_le' h
  rfl

theorem readHostReg_of_ge (s : State) {n : Nat} (h : 11 ≤ n) : readHostReg s n = 0#256 := by
  rw [readHostReg, hostReg_of_ge h]

/-- A read sees neither the accesses to come nor the last reply. -/
@[simp] theorem readHostReg_takeAccess (s : State) (q : List HostAction) (n : Nat) :
    readHostReg (s.takeAccess q) n = readHostReg s n := by
  unfold readHostReg
  cases hostReg n with
  | none => rfl
  | some r => cases r <;> rfl

/-- No register shows anything of `DK` or `RKA` (R41, R42). -/
theorem readHostReg_setKeyStores (s : State) (d : Vector DesSchedule 3) (r : RoundKeys) (n : Nat) :
    readHostReg { s with dk := d, rka := r } n = readHostReg s n := by
  unfold readHostReg
  cases hostReg n with
  | none => rfl
  | some r => cases r <;> rfl

/-- The fields of two concatenated values do not overlap. -/
theorem toNat_append_eq_add {m n : Nat} (x : BitVec m) (y : BitVec n) :
    (x ++ y).toNat = 2 ^ n * x.toNat + y.toNat := by
  rw [BitVec.toNat_append, ← Nat.shiftLeft_add_eq_or_of_lt y.isLt, Nat.shiftLeft_eq, Nat.mul_comm]

/-- `STATUS` as a number (R27). -/
theorem status_toNat (s : State) :
    s.status.toNat = s.err.code.toNat + 16 * s.alg.code.toNat + 256 * s.elog.toNat := by
  simp only [State.status, toNat_append_eq_add, BitVec.toNat_ofNat]
  omega

/-- Widening to the port's container keeps a register's value. -/
theorem toNat_setWidth_host {w : Nat} (x : BitVec w) (hw : w ≤ 256) : (x.setWidth 256).toNat = x.toNat :=
  BitVec.toNat_setWidth_of_le hw

theorem readHostReg_reset (n : Nat) : readHostReg State.reset n = 0#256 := by
  unfold readHostReg
  cases hostReg n with
  | none => rfl
  | some r => cases r <;> rfl

/-! ### Register writes -/

/-- What a write of a register other than `CMD` leaves: the value's low bits where the number names an `RW` register, nothing
elsewhere (R25, R30). -/
def State.storeReg (s : State) (n : Nat) (v : HostValue) : State :=
  { s with
    keyin := if n = 2 then v else s.keyin
    din := if n = 3 then v.setWidth 128 else s.din
    nonce := if n = 5 then v.setWidth 128 else s.nonce
    idx := if n = 6 then v.setWidth 64 else s.idx
    len := if n = 7 then v.setWidth 32 else s.len
    rem := if n = 8 then v.setWidth 8 else s.rem }

theorem storeReg_of_ge (s : State) {n : Nat} (v : HostValue) (h : 11 ≤ n) : s.storeReg n v = s := by
  have hne : ∀ k, k < 11 → n ≠ k := by omega
  simp [State.storeReg, hne]

theorem writeHostReg_of_ne_zero (s : State) {n : Nat} (v : HostValue) (h : n ≠ 0) :
    writeHostReg s n v = .next (s.storeReg n v) := by
  by_cases hn : n < 11
  · interval_cases n
    · exact absurd rfl h
    all_goals rfl
  · have hge : 11 ≤ n := by omega
    rw [writeHostReg, hostReg_of_ge hge, storeReg_of_ge s v hge]

theorem writeCmd_of_decode {w : CommandWord} {i : Instr} (s : State) (h : decodeWord w = .ok i) :
    writeCmd w s = exec i { s with cmd := w } := by
  rw [writeCmd, h]

/-- A write of `CMD` runs the word's command, or raises `IllegalCommand` (R26, R343). -/
theorem writeCmd_eq_next {w : CommandWord} {s t : State} :
    writeCmd w s = .next t ↔
      (∃ i, decodeWord w = .ok i ∧ exec i { s with cmd := w } = .next t) ∨
      ∃ d, decodeWord w = .error d ∧ State.logError .illegalCommand { s with cmd := w } = t := by
  unfold writeCmd
  cases decodeWord w <;> simp [raise]

/-! ### Accesses that run no command -/

/-- The state after an access other than a write of `CMD`. Of a write of `CMD` it says nothing. -/
def State.afterAccess (s : State) : HostAction → State
  | .readReg n => { s with hostReply := .register (readHostReg s n) }
  | .writeReg n v => s.storeReg n v
  | .readIbuf a => { s with hostReply := .byte (readHostBuf s .ibuf a) }
  | .writeIbuf a b => writeHostIbuf s a b
  | .readObuf a => { s with hostReply := .byte (readHostBuf s .obuf a) }
  | .reset => hostReset s

/-- Every access but a write of `CMD` answers `afterAccess`. -/
theorem hostAccess_of_not_cmd {act : HostAction} (s : State) (h : ∀ v, act ≠ .writeReg 0 v) :
    hostAccess act s = .next (s.afterAccess act) := by
  cases act with
  | writeReg n v =>
    have hn : n ≠ 0 := fun hzero => h v (by rw [hzero])
    exact writeHostReg_of_ne_zero s v hn
  | _ => rfl

theorem writeHostIbuf_of_lt {s : State} {a : Nat} (b : Byte) (h : a < s.cfg.bufBytes) :
    writeHostIbuf s a b = { s with ibuf := s.ibuf.store a b } := if_pos h

theorem writeHostIbuf_of_ge {s : State} {a : Nat} (b : Byte) (h : s.cfg.bufBytes ≤ a) :
    writeHostIbuf s a b = s := if_neg (Nat.not_lt.mpr h)

/-- A write of `IBUF` can change nothing but `IBUF` (R31). -/
theorem writeHostIbuf_frame (s : State) (a : Nat) (b : Byte) :
    writeHostIbuf s a b = { s with ibuf := (writeHostIbuf s a b).ibuf } := by
  unfold writeHostIbuf
  split <;> rfl

theorem bufByte_writeHostIbuf (s : State) (a : Nat) (b : Byte) (x : Nat) :
    (writeHostIbuf s a b).bufByte .ibuf x =
      if x = a ∧ a < s.cfg.bufBytes then b else s.bufByte .ibuf x := by
  by_cases ha : a < s.cfg.bufBytes
  · rw [writeHostIbuf_of_lt b ha, bufByte_ibuf, bufByte_ibuf, written_store]
    by_cases hx : x = a <;> simp [hx, ha]
  · rw [writeHostIbuf_of_ge b (Nat.not_lt.mp ha), if_neg fun h => ha h.2]

/-! ### The step -/

theorem step_of_nil {s : State} (h : s.hostQueue = []) : step s = .next s := by rw [step, h]

theorem step_of_cons {s : State} {act : HostAction} {rest : List HostAction} (h : s.hostQueue = act :: rest) :
    step s = hostAccess act (s.takeAccess rest) := by rw [step, h]

/-- A step whose access is no write of `CMD` answers `afterAccess`. -/
theorem step_of_not_cmd {s : State} {act : HostAction} {rest : List HostAction} (h : s.hostQueue = act :: rest)
    (hact : ∀ v, act ≠ .writeReg 0 v) : step s = .next ((s.takeAccess rest).afterAccess act) := by
  rw [step_of_cons h, hostAccess_of_not_cmd _ hact]

/-- What a step can be: nothing waits, or a write of `CMD` runs the word's command, or it raises `IllegalCommand`, or another
access is carried out. -/
theorem step_cases {s t : State} (h : step s = .next t) :
    (s.hostQueue = [] ∧ t = s) ∨
    (∃ v rest i, s.hostQueue = .writeReg 0 v :: rest ∧ decodeWord (v.setWidth 16) = .ok i ∧
      exec i { s.takeAccess rest with cmd := v.setWidth 16 } = .next t) ∨
    (∃ v rest d, s.hostQueue = .writeReg 0 v :: rest ∧ decodeWord (v.setWidth 16) = .error d ∧
      t = State.logError .illegalCommand { s.takeAccess rest with cmd := v.setWidth 16 }) ∨
    ∃ act rest, s.hostQueue = act :: rest ∧ (∀ v, act ≠ .writeReg 0 v) ∧
      t = (s.takeAccess rest).afterAccess act := by
  match hq : s.hostQueue with
  | [] =>
    rw [step_of_nil hq] at h
    cases h
    exact .inl ⟨rfl, rfl⟩
  | act :: rest =>
    by_cases hact : ∃ v, act = .writeReg 0 v
    · obtain ⟨v, rfl⟩ := hact
      rw [step_of_cons hq] at h
      obtain ⟨i, hi, hrun⟩ | ⟨d, hd, rfl⟩ := writeCmd_eq_next.mp h
      · exact .inr (.inl ⟨v, rest, i, rfl, hi, hrun⟩)
      · exact .inr (.inr (.inl ⟨v, rest, d, rfl, hd, rfl⟩))
    · have hnot : ∀ v, act ≠ .writeReg 0 v := fun v hv => hact ⟨v, hv⟩
      rw [step_of_not_cmd hq hnot] at h
      cases h
      exact .inr (.inr (.inr ⟨act, rest, rfl, hnot, rfl⟩))

/-! ### The statements about one access -/

/-- Settles O6: the step takes the access off the queue, and the decoded word runs. -/
theorem stepRunsTheDecodedCommand : Obligations.StepRunsTheDecodedCommand := by
  intro s v rest i hq hi
  rw [step_of_cons hq]
  exact writeCmd_of_decode (s.takeAccess rest) hi

/-- Settles O7, register by register. -/
theorem registerReadReturnsValue : Obligations.RegisterReadReturnsValue := by
  intro s n rest hq
  refine ⟨readHostReg s n, ?_, ?_, ?_, ?_, ?_, ?_, ?_, ?_, ?_, ?_, ?_, ?_, ?_⟩
  · rw [step_of_not_cmd hq (by simp), State.afterAccess, readHostReg_takeAccess]
    rfl
  · rintro rfl; exact toNat_setWidth_host s.cmd (by decide)
  · rintro rfl; exact (toNat_setWidth_host s.status (by decide)).trans (status_toNat s)
  · rintro rfl; rfl
  · rintro rfl; exact toNat_setWidth_host s.din (by decide)
  · rintro rfl; exact toNat_setWidth_host s.dout (by decide)
  · rintro rfl; exact toNat_setWidth_host s.nonce (by decide)
  · rintro rfl; exact toNat_setWidth_host s.idx (by decide)
  · rintro rfl; exact toNat_setWidth_host s.len (by decide)
  · rintro rfl; exact toNat_setWidth_host s.rem (by decide)
  · rintro rfl; exact toNat_setWidth_host s.pad (by decide)
  · rintro rfl; exact toNat_setWidth_host s.olen (by decide)
  · intro hn; rw [readHostReg_of_ge s hn]; rfl

/-- Settles O8: `State.storeReg` is the state the statement writes out. -/
theorem registerWriteStoresValue : Obligations.RegisterWriteStoresValue := by
  intro s n v rest hq hn
  have hnot : ∀ u, HostAction.writeReg n v ≠ .writeReg 0 u := by simp [hn]
  exact step_of_not_cmd hq hnot

/-- Settles O9, with read after write of the buffer. -/
theorem ibufWriteChangesOneByte : Obligations.IbufWriteChangesOneByte := by
  intro s a b rest hq
  have hbyte := bufByte_writeHostIbuf (s.takeAccess rest) a b
  simp only [takeAccess_cfg, takeAccess_bufByte] at hbyte
  have hpast : s.cfg.bufBytes ≤ a → (writeHostIbuf (s.takeAccess rest) a b).ibuf = s.ibuf := fun ha => by
    rw [writeHostIbuf_of_ge (s := s.takeAccess rest) b ha, takeAccess_ibuf]
  exact ⟨_, step_of_not_cmd hq (by simp), writeHostIbuf_frame (s.takeAccess rest) a b, hbyte, hpast⟩

/-- Settles O10: the read of a byte sees neither the queue nor the last reply. -/
theorem bufferReadReturnsByte : Obligations.BufferReadReturnsByte := by
  intro s a rest
  have hread : ∀ space, readHostBuf (s.takeAccess rest) space a =
      if a < s.cfg.bufBytes then s.bufByte space a else 0#8 := fun space => by
    rw [readHostBuf, takeAccess_cfg, takeAccess_bufByte]
  constructor
  · intro hq
    rw [step_of_not_cmd hq (by simp), State.afterAccess, hread]
    rfl
  · intro hq
    rw [step_of_not_cmd hq (by simp), State.afterAccess, hread]
    rfl

/-- Settles O11: after a reset nothing is written in either buffer, so each byte is the free value. -/
theorem resetGivesTheResetValues : Obligations.ResetGivesTheResetValues := by
  refine ⟨fun s rest hq => ⟨_, step_of_not_cmd hq (by simp), rfl, fun space a => ?_⟩,
    readHostReg_reset, rfl, rfl, rfl⟩
  cases space with
  | ibuf => rfl
  | obuf => rfl

/-! ### The key stores and the host -/

/-- An access that runs no command and is no reset leaves the key slot. -/
theorem afterAccess_keySlot (s : State) {act : HostAction} (hreset : act ≠ .reset) :
    (s.afterAccess act).alg = s.alg ∧ (s.afterAccess act).dk = s.dk ∧ (s.afterAccess act).rka = s.rka := by
  cases act with
  | writeIbuf a b =>
    rw [State.afterAccess, writeHostIbuf_frame]
    exact ⟨rfl, rfl, rfl⟩
  | reset => exact absurd rfl hreset
  | _ => exact ⟨rfl, rfl, rfl⟩

/-- Such an access does the same to the rest of the state whatever the key stores hold (R41, R42). -/
theorem afterAccess_setKeyStores (s : State) (d : Vector DesSchedule 3) (r : RoundKeys) {act : HostAction}
    (hreset : act ≠ .reset) :
    ({ s with dk := d, rka := r } : State).afterAccess act = { s.afterAccess act with dk := d, rka := r } := by
  cases act with
  | readReg n => simp only [State.afterAccess, readHostReg_setKeyStores]
  | writeIbuf a b =>
    by_cases ha : a < s.cfg.bufBytes
    · simp only [State.afterAccess, writeHostIbuf, if_pos ha]
    · simp only [State.afterAccess, writeHostIbuf, if_neg ha]
  | reset => exact absurd rfl hreset
  | writeReg n v => rfl
  | readIbuf a => rfl
  | readObuf a => rfl

/-- Settles O59, from what the access leaves of the key stores and what it reads of them. -/
theorem hostCannotReachTheKeyStores : Obligations.HostCannotReachTheKeyStores := by
  intro s t d r act rest hq hcmd hreset hstep
  rw [step_of_not_cmd hq hcmd] at hstep
  cases hstep
  obtain ⟨-, hdk, hrka⟩ := afterAccess_keySlot (s.takeAccess rest) hreset
  refine ⟨hdk, hrka, ?_⟩
  rw [step_of_not_cmd (s := { s with dk := d, rka := r }) hq hcmd]
  exact congrArg _ (afterAccess_setKeyStores (s.takeAccess rest) d r hreset)

end Sys2Proof.Machine

/-! ## How a command can end (R120 to R128, R305, R310, R311) -/

namespace Sys2Proof.Machine

/-! ### The key slot a command leaves -/

theorem KeySlotWf.congr {s t : State} (h : KeySlotWf s) (halg : t.alg = s.alg) (hdk : t.dk = s.dk)
    (hrka : t.rka = s.rka) : KeySlotWf t := by
  obtain ⟨h0, h1, h2, hunused, hused⟩ := h
  rw [← halg, ← hdk] at h0
  rw [← halg, ← hdk] at h1 h2
  rw [← halg, ← hrka] at hunused hused
  exact ⟨h0, h1, h2, hunused, hused⟩

theorem keySlotWf_none {s : State} (halg : s.alg = .none) (hdk : s.dk = zeroDk) (hrka : s.rka = zeroRoundKeys) :
    KeySlotWf s := by
  constructor <;> simp [halg, hdk, hrka, zeroDk, Alg.aesRounds]

theorem keySlotWf_des (s : State) (d : DesSchedule) :
    KeySlotWf (s.loadKeySlot .des #v[d, zeroSchedule, zeroSchedule] zeroRoundKeys) := by
  constructor <;> simp [Alg.aesRounds]

theorem keySlotWf_tdes (s : State) (d : Vector DesSchedule 3) : KeySlotWf (s.loadKeySlot .tdes d zeroRoundKeys) := by
  constructor <;> simp [Alg.aesRounds]

theorem aesKeyWords_eq_some {nlen nk : Nat} (h : aesKeyWords nlen = some nk) : nk = 4 ∨ nk = 6 ∨ nk = 8 := by
  unfold aesKeyWords at h
  split at h <;> simp_all

/-- The kind of cipher an AES key builds has the number of rounds its array was derived for (R123, R129). -/
theorem aesRounds_aesAlg {nk : Nat} (h : nk = 4 ∨ nk = 6 ∨ nk = 8) : (aesAlg nk).aesRounds = some (roundsOf nk) := by
  obtain rfl | rfl | rfl := h <;> rfl

theorem keySlotWf_aes (s : State) {nk : Nat} (key : Nat → Byte) (h : nk = 4 ∨ nk = 6 ∨ nk = 8) :
    KeySlotWf (s.loadKeySlot (aesAlg nk) zeroDk (aesDeriveRka nk key)) where
  dk0 _ _ := by simp [zeroDk]
  dk1 _ := by simp [zeroDk]
  dk2 _ := by simp [zeroDk]
  rkaUnused hnone := by simp [aesRounds_aesAlg h] at hnone
  rkaUsed nr hnr := by
    have hrounds : roundsOf nk = nr := by simpa [aesRounds_aesAlg h] using hnr
    rw [← hrounds]
    exact roundKeysOf_aesDeriveRka key (by omega)

/-! ### One inversion for the nine commands -/

/-- The state with no cipher and the key material and `DOUT` zero, as `KEYCLR` leaves it but for `ERR` (R128). -/
def State.clearKeys (s : State) : State :=
  { s.loadKeySlot .none zeroDk zeroRoundKeys with keyin := 0#256, dout := 0#128 }

theorem execKeyclr_eq (s : State) : execKeyclr s = succeed s.clearKeys := rfl

/-- The state with the stream's output in `OBUF` and the given lengths, as `STRE` and `STRD` leave it but for `ERR` (R310,
R311). -/
def State.streamed (s : State) (c : Cipher) (rem pad : BitVec 8) (olen : BitVec 32) : State :=
  { s with obuf := s.streamOutput c, rem := rem, pad := pad, olen := olen }

/-- The commands that build a cipher. -/
def IsKeyload (i : Instr) : Prop :=
  ∃ nlen, i = .keyloadDes nlen ∨ i = .keyloadTdes nlen ∨ i = .keyloadAes nlen

/-- The ways in which command `i`, run from `s`, can end, with what it may write in each. -/
inductive EndsIn (s : State) (i : Instr) : State → Prop where
  /-- An error: only `ERR` and `ELOG` change (R350). -/
  | error (e : ErrCode) (he : e ≠ .ok) : EndsIn s i (s.logError e)
  /-- A key load: a complete key slot replaces the old one (R121 to R123). -/
  | keyload (alg : Alg) (dk : Vector DesSchedule 3) (rka : RoundKeys) (hi : IsKeyload i)
      (hslot : KeySlotWf (s.loadKeySlot alg dk rka)) : EndsIn s i (s.loadKeySlot alg dk rka).clearErr
  /-- `KEYCLR` (R128). -/
  | keyclr (hi : i = .keyclr) : EndsIn s i s.clearKeys.clearErr
  /-- A command on one block writes `DOUT` (R126, R127, R305). -/
  | block (v : Block) (hi : i ∈ [Instr.enc, .dec, .ctrx]) : EndsIn s i (State.clearErr { s with dout := v })
  /-- A stream command writes `OBUF` and the lengths, of which `REM` by `STRE` only (R310, R311). -/
  | stream (c : Cipher) (rem pad : BitVec 8) (olen : BitVec 32) (hi : i ∈ [Instr.stre, .strd])
      (hrem : i ≠ .stre → rem = s.rem) (hfit : s.padded c ≤ s.cfg.bufBytes) (hpad : pad.toNat < 16)
      (holen : olen.toNat ≤ s.cfg.bufBytes) : EndsIn s i (s.streamed c rem pad olen).clearErr

theorem keyloadDes_endsIn {nlen : Nat} {s t : State} (h : execKeyloadDes nlen s = .next t) :
    EndsIn s (.keyloadDes nlen) t := by
  unfold execKeyloadDes at h
  split at h
  · rw [← succeed_eq_next.mp h]
    exact .keyload _ _ _ ⟨nlen, .inl rfl⟩ (keySlotWf_des s _)
  · rw [← raise_eq_next.mp h]
    exact .error _ (by decide)

theorem keyloadTdes_endsIn {nlen : Nat} {s t : State} (h : execKeyloadTdes nlen s = .next t) :
    EndsIn s (.keyloadTdes nlen) t := by
  unfold execKeyloadTdes at h
  split at h
  · rw [← succeed_eq_next.mp h]
    exact .keyload _ _ _ ⟨nlen, .inr (.inl rfl)⟩ (keySlotWf_tdes s _)
  · rw [← raise_eq_next.mp h]
    exact .error _ (by decide)

theorem keyloadAes_endsIn {nlen : Nat} {s t : State} (h : execKeyloadAes nlen s = .next t) :
    EndsIn s (.keyloadAes nlen) t := by
  unfold execKeyloadAes at h
  split at h
  next nk hnk =>
    rw [← succeed_eq_next.mp h]
    exact .keyload _ _ _ ⟨nlen, .inr (.inr rfl)⟩ (keySlotWf_aes s _ (aesKeyWords_eq_some hnk))
  next =>
    rw [← raise_eq_next.mp h]
    exact .error _ (by decide)

/-- `ENC`, `DEC` and `CTRX` differ only in the block they write to `DOUT`. -/
theorem withCipher_writeDout_endsIn {i : Instr} (hi : i ∈ [Instr.enc, .dec, .ctrx]) {s t : State}
    {value : Cipher → Block} (h : withCipher s (fun c => writeDout (value c) s) = .next t) : EndsIn s i t := by
  obtain ⟨-, rfl⟩ | ⟨c, -, hrun⟩ := withCipher_eq_next.mp h
  · exact .error _ (by decide)
  · rw [← succeed_eq_next.mp hrun]
    exact .block _ hi

theorem toNat_ofNat_le (w n : Nat) : (BitVec.ofNat w n).toNat ≤ n := by
  rw [BitVec.toNat_ofNat]
  exact Nat.mod_le _ _

/-- A count of padding or cut bytes is below 16 (R300, R307, R311). -/
theorem toNat_ofNat_mod_blockBytes_lt (c : Cipher) (n : Nat) :
    (BitVec.ofNat 8 (n % c.blockBytes)).toNat < 16 := by
  have hmod : n % c.blockBytes < c.blockBytes := Nat.mod_lt _ (blockBytes_pos c)
  have hle := toNat_ofNat_le 8 (n % c.blockBytes)
  obtain hb | hb := blockBytes_cases c <;> omega

theorem stre_endsIn {s t : State} (h : execStre s = .next t) : EndsIn s .stre t := by
  obtain ⟨-, rfl⟩ | ⟨c, -, hrun⟩ := withCipher_eq_next.mp h
  · exact .error _ (by decide)
  · split at hrun
    next =>
      rw [← raise_eq_next.mp hrun]
      exact .error _ (by decide)
    next hover =>
      have hfit : s.padded c ≤ s.cfg.bufBytes := Nat.not_lt.mp hover
      rw [← succeed_eq_next.mp hrun]
      exact .stream c _ _ _ (by simp) (fun hne => absurd rfl hne) hfit (toNat_ofNat_mod_blockBytes_lt c _)
        ((toNat_ofNat_le 32 _).trans hfit)

theorem strd_endsIn {s t : State} (h : execStrd s = .next t) : EndsIn s .strd t := by
  obtain ⟨-, rfl⟩ | ⟨c, -, hrun⟩ := withCipher_eq_next.mp h
  · exact .error _ (by decide)
  · split_ifs at hrun with hrem hcut hover
    · rw [← raise_eq_next.mp hrun]
      exact .error _ (by decide)
    · rw [← raise_eq_next.mp hrun]
      exact .error _ (by decide)
    · rw [← raise_eq_next.mp hrun]
      exact .error _ (by decide)
    · have hfit : s.padded c ≤ s.cfg.bufBytes := Nat.not_lt.mp hover
      rw [← succeed_eq_next.mp hrun]
      exact .stream c s.rem _ _ (by simp) (fun _ => rfl) hfit (toNat_ofNat_mod_blockBytes_lt c _)
        ((toNat_ofNat_le 32 _).trans ((Nat.sub_le _ _).trans hfit))

/-- What a command can do: every outcome of `exec` is one of the ends of `EndsIn`. -/
theorem exec_endsIn {i : Instr} {s t : State} (h : exec i s = .next t) : EndsIn s i t := by
  cases i with
  | keyloadDes nlen => exact keyloadDes_endsIn h
  | keyloadTdes nlen => exact keyloadTdes_endsIn h
  | keyloadAes nlen => exact keyloadAes_endsIn h
  | keyclr =>
    rw [← succeed_eq_next.mp ((execKeyclr_eq s).symm.trans h)]
    exact .keyclr rfl
  | enc => exact withCipher_writeDout_endsIn (by simp) h
  | dec => exact withCipher_writeDout_endsIn (by simp) h
  | ctrx => exact withCipher_writeDout_endsIn (by simp) h
  | stre => exact stre_endsIn h
  | strd => exact strd_endsIn h

/-! ### What each end leaves -/

/-- The log bits after a command are those before it and no others are lost (R350, R351). -/
theorem EndsIn.elog {i : Instr} {s t : State} (h : EndsIn s i t) : ∃ bits, t.elog = s.elog ||| bits := by
  cases h with
  | error e => exact ⟨e.logBit, rfl⟩
  | _ => exact ⟨0#5, BitVec.or_zero.symm⟩

/-- A changed key slot means that the command was a key load or `KEYCLR`, and succeeded (R43). -/
theorem EndsIn.keySlot {i : Instr} {s t : State} (h : EndsIn s i t) :
    (t.alg = s.alg ∧ t.dk = s.dk ∧ t.rka = s.rka) ∨ (t.err = .ok ∧ (i = .keyclr ∨ IsKeyload i)) := by
  cases h with
  | keyload _ _ _ hi => exact .inr ⟨rfl, .inr hi⟩
  | keyclr hi => exact .inr ⟨rfl, .inl hi⟩
  | _ => exact .inl ⟨rfl, rfl, rfl⟩

/-- Settles O24, end by end. -/
theorem commandsWriteOnlyTheirSpaces : Obligations.CommandsWriteOnlyTheirSpaces := by
  intro i s t hrun
  cases exec_endsIn hrun with
  | error e he => simp
  | keyload alg dk rka hi hslot =>
    obtain ⟨nlen, rfl | rfl | rfl⟩ := hi <;> simp
  | keyclr hi =>
    subst hi
    simp [State.clearKeys]
  | block v hi =>
    exact ⟨by simp, fun _ => rfl, fun hnot => absurd (List.mem_cons_of_mem _ hi) hnot, fun _ => rfl,
      fun _ => ⟨rfl, rfl, rfl⟩, fun _ => ⟨rfl, rfl, rfl⟩, by simp⟩
  | stream c rem pad olen hi hrem hfit hpad holen =>
    exact ⟨by simp [State.streamed], fun _ => rfl, fun _ => rfl, hrem, fun hnot => absurd hi hnot,
      fun _ => ⟨rfl, rfl, rfl⟩, by simp [State.streamed]⟩

end Sys2Proof.Machine

/-! ## What commands and steps do to the log and the key slot -/

namespace Sys2Proof.Machine

/-- Settles O23: only a command writes the key slot outside reset, and `EndsIn.keySlot` says which. -/
theorem onlyKeyCommandsChangeTheKeySlot : Obligations.OnlyKeyCommandsChangeTheKeySlot := by
  intro s t hstep
  obtain ⟨-, rfl⟩ | ⟨v, rest, i, hq, hi, hrun⟩ | ⟨v, rest, d, -, -, rfl⟩ | ⟨act, rest, hq, -, rfl⟩ :=
    step_cases hstep
  · exact .inl ⟨rfl, rfl, rfl⟩
  · obtain hsame | ⟨herr, hkind⟩ := (exec_endsIn hrun).keySlot
    · exact .inl hsame
    · exact .inr (.inr ⟨v, i, by rw [hq, List.head?_cons], hi, herr, hkind⟩)
  · exact .inl ⟨rfl, rfl, rfl⟩
  · by_cases hreset : act = .reset
    · exact .inr (.inl (by rw [hq, hreset, List.head?_cons]))
    · exact .inl (afterAccess_keySlot (s.takeAccess rest) hreset)

theorem and_or_self_left {w : Nat} (x y : BitVec w) : x &&& (x ||| y) = x := by
  apply BitVec.eq_of_getLsbD_eq
  intro i _
  rw [BitVec.getLsbD_and, BitVec.getLsbD_or]
  exact inf_sup_self

/-- Host accesses other than `CMD` writes and reset leave the log (R27). -/
theorem afterAccess_elog (s : State) {act : HostAction} (hreset : act ≠ .reset) :
    (s.afterAccess act).elog = s.elog := by
  cases act with
  | writeIbuf a b => rw [State.afterAccess, writeHostIbuf_frame]
  | reset => exact absurd rfl hreset
  | _ => rfl

/-- Settles O16: outside reset the log only gains bits. -/
theorem errorLogIsSticky : Obligations.ErrorLogIsSticky := by
  intro s t hstep hhead
  suffices hgrow : ∃ bits, t.elog = s.elog ||| bits by
    obtain ⟨bits, hbits⟩ := hgrow
    rw [hbits, and_or_self_left]
  obtain ⟨-, rfl⟩ | ⟨v, rest, i, -, -, hrun⟩ | ⟨v, rest, d, -, -, rfl⟩ | ⟨act, rest, hq, -, rfl⟩ :=
    step_cases hstep
  · exact ⟨0#5, BitVec.or_zero.symm⟩
  · exact (exec_endsIn hrun).elog
  · exact ⟨_, rfl⟩
  · have hreset : act ≠ .reset := fun h => hhead (by rw [hq, h, List.head?_cons])
    exact ⟨0#5, by rw [afterAccess_elog _ hreset, takeAccess_elog, BitVec.or_zero]⟩

/-! ### No command reads `ERR` or `ELOG` -/

/-- The state with another `ERR` and `ELOG`. -/
def State.withStatus (e : ErrCode) (l : BitVec 5) (s : State) : State := { s with err := e, elog := l }

/-- A command's outcome with the log it would have left from log `l`. -/
def relog (l : BitVec 5) : Result → Result
  | .next t => .next { t with elog := l ||| t.err.logBit }
  | r => r

theorem raise_withStatus (x e : ErrCode) (l : BitVec 5) (s : State) :
    raise x (s.withStatus e l) = relog l (raise x s) := rfl

theorem succeed_withStatus (e : ErrCode) (l : BitVec 5) (s : State) :
    succeed (s.withStatus e l) = relog l (succeed s) := by
  have hbit : l ||| ErrCode.ok.logBit = l := BitVec.or_zero
  simp only [succeed, relog, clearErr_err, hbit]
  rfl

theorem withCipher_withStatus {e : ErrCode} {l : BitVec 5} {s : State} {run run' : Cipher → Result}
    (h : ∀ c, run' c = relog l (run c)) :
    withCipher (s.withStatus e l) run' = relog l (withCipher s run) := by
  have hcipher : (s.withStatus e l).cipher = s.cipher := rfl
  unfold withCipher
  rw [hcipher]
  cases s.cipher with
  | none => exact raise_withStatus .noKey e l s
  | some c => exact h c

theorem writeDout_withStatus (v : Block) (e : ErrCode) (l : BitVec 5) (s : State) :
    writeDout v (s.withStatus e l) = relog l (writeDout v s) :=
  succeed_withStatus e l { s with dout := v }

theorem ite_withStatus {p : Prop} [Decidable p] {l : BitVec 5} {a b a' b' : Result} (ha : a' = relog l a)
    (hb : b' = relog l b) : (if p then a' else b') = relog l (if p then a else b) := by
  split
  · exact ha
  · exact hb

/-- No command's outcome depends on `ERR` and `ELOG` but for the log it passes on (R27, R36). -/
theorem exec_withStatus (i : Instr) (e : ErrCode) (l : BitVec 5) (s : State) :
    exec i (s.withStatus e l) = relog l (exec i s) := by
  cases i with
  | keyloadDes nlen =>
    exact ite_withStatus (succeed_withStatus e l (s.loadKeySlot _ _ _)) (raise_withStatus _ e l s)
  | keyloadTdes nlen =>
    exact ite_withStatus (succeed_withStatus e l (s.loadKeySlot _ _ _)) (raise_withStatus _ e l s)
  | keyloadAes nlen =>
    simp only [exec, execKeyloadAes]
    cases aesKeyWords nlen with
    | some nk => exact succeed_withStatus e l (s.loadKeySlot _ _ _)
    | none => exact raise_withStatus _ e l s
  | keyclr => exact succeed_withStatus e l s.clearKeys
  | enc => exact withCipher_withStatus fun c => writeDout_withStatus _ e l s
  | dec => exact withCipher_withStatus fun c => writeDout_withStatus _ e l s
  | ctrx => exact withCipher_withStatus fun c => writeDout_withStatus _ e l s
  | stre =>
    exact withCipher_withStatus fun c =>
      ite_withStatus (raise_withStatus _ e l s) (succeed_withStatus e l (s.streamed c _ _ _))
  | strd =>
    exact withCipher_withStatus fun c =>
      ite_withStatus (raise_withStatus _ e l s) <|
        ite_withStatus (raise_withStatus _ e l s) <|
          ite_withStatus (raise_withStatus _ e l s) (succeed_withStatus e l (s.streamed c _ _ _))

/-- Settles O17, from `exec_withStatus`. -/
theorem noCommandReadsErrOrElog : Obligations.NoCommandReadsErrOrElog := by
  intro i s t e l hrun
  have h := exec_withStatus i e l s
  rwa [hrun] at h

end Sys2Proof.Machine

/-! ## The invariant of the core -/

namespace Sys2Proof.Machine

/-- The invariant reads nothing of the fields that `t` takes over here. -/
theorem Inv.of_unread {s t : State} (h : Inv s)
    (ht : t = { s with
      cmd := t.cmd, keyin := t.keyin, din := t.din, dout := t.dout, nonce := t.nonce, idx := t.idx, len := t.len,
      rem := t.rem, epoch := t.epoch, hostQueue := t.hostQueue, hostReply := t.hostReply }) : Inv t := by
  rw [ht]
  exact ⟨h.keySlot.congr rfl rfl rfl, h.ibufWf, h.obufWf, h.ibufBelow, h.obufBelow, h.errLogged, h.olenBound,
    h.padBound⟩

theorem Inv.logError {s : State} (h : Inv s) (e : ErrCode) : Inv (s.logError e) where
  keySlot := h.keySlot.congr rfl rfl rfl
  ibufWf := h.ibufWf
  obufWf := h.obufWf
  ibufBelow := h.ibufBelow
  obufBelow := h.obufBelow
  errLogged := by simp [BitVec.or_assoc]
  olenBound := h.olenBound
  padBound := h.padBound

theorem Inv.clearErr {s : State} (h : Inv s) : Inv s.clearErr where
  keySlot := h.keySlot.congr rfl rfl rfl
  ibufWf := h.ibufWf
  obufWf := h.obufWf
  ibufBelow := h.ibufBelow
  obufBelow := h.obufBelow
  errLogged := BitVec.or_zero
  olenBound := h.olenBound
  padBound := h.padBound

theorem Inv.loadKeySlot {s : State} (h : Inv s) {alg : Alg} {dk : Vector DesSchedule 3} {rka : RoundKeys}
    (hslot : KeySlotWf (s.loadKeySlot alg dk rka)) : Inv (s.loadKeySlot alg dk rka) where
  keySlot := hslot
  ibufWf := h.ibufWf
  obufWf := h.obufWf
  ibufBelow := h.ibufBelow
  obufBelow := h.obufBelow
  errLogged := h.errLogged
  olenBound := h.olenBound
  padBound := h.padBound

theorem Inv.stream {s : State} (h : Inv s) (c : Cipher) (rem : BitVec 8) {pad : BitVec 8} {olen : BitVec 32}
    (hfit : s.padded c ≤ s.cfg.bufBytes) (hpad : pad.toNat < 16) (holen : olen.toNat ≤ s.cfg.bufBytes) :
    Inv (s.streamed c rem pad olen) where
  keySlot := h.keySlot.congr rfl rfl rfl
  ibufWf := h.ibufWf
  obufWf := streamOutput_wf s c h.obufWf
  ibufBelow := h.ibufBelow
  obufBelow := streamOutput_below s c h.obufBelow hfit
  errLogged := h.errLogged
  olenBound := holen
  padBound := hpad

theorem Inv.writeHostIbuf {s : State} (h : Inv s) (a : Nat) (b : Byte) : Inv (writeHostIbuf s a b) := by
  by_cases ha : a < s.cfg.bufBytes
  · rw [writeHostIbuf_of_lt b ha]
    exact ⟨h.keySlot.congr rfl rfl rfl, store_wf h.ibufWf a b, h.obufWf, store_below h.ibufBelow ha b, h.obufBelow,
      h.errLogged, h.olenBound, h.padBound⟩
  · rw [writeHostIbuf_of_ge b (Nat.not_lt.mp ha)]
    exact h

/-- Every reset state has the invariant, whatever the parameters (R50). -/
theorem inv_resetState (cfg : Config) (epoch : Nat) (queue : List HostAction) :
    Inv (resetState cfg epoch queue) where
  keySlot := keySlotWf_none rfl rfl rfl
  ibufWf := List.Pairwise.nil
  obufWf := List.Pairwise.nil
  ibufBelow _ hmem := absurd hmem List.not_mem_nil
  obufBelow _ hmem := absurd hmem List.not_mem_nil
  errLogged := BitVec.or_zero
  olenBound := Nat.zero_le _
  padBound := Nat.zero_lt_succ 15

/-- Settles O58. -/
theorem resetHasInv : Obligations.ResetHasInv := inv_resetState _ _ _

/-- Every end of a command keeps the invariant. -/
theorem Inv.endsIn {i : Instr} {s t : State} (h : Inv s) (hend : EndsIn s i t) : Inv t := by
  cases hend with
  | error e => exact h.logError e
  | keyload alg dk rka hi hslot => exact (h.loadKeySlot hslot).clearErr
  | keyclr =>
    have hloaded : Inv (s.loadKeySlot .none zeroDk zeroRoundKeys) := h.loadKeySlot (keySlotWf_none rfl rfl rfl)
    have hcleared : Inv s.clearKeys := hloaded.of_unread rfl
    exact hcleared.clearErr
  | block v =>
    have hwritten : Inv { s with dout := v } := h.of_unread rfl
    exact hwritten.clearErr
  | stream c rem pad olen hi hrem hfit hpad holen => exact (h.stream c rem hfit hpad holen).clearErr

/-- Every access that runs no command keeps the invariant. -/
theorem Inv.afterAccess {s : State} (h : Inv s) (act : HostAction) : Inv (s.afterAccess act) := by
  cases act with
  | writeIbuf a b => exact h.writeHostIbuf a b
  | reset => exact inv_resetState _ _ _
  | _ => exact h.of_unread rfl

/-- Settles O57: the step's four cases, of which a command is split by its ends. -/
theorem everyStepKeepsInv : Obligations.EveryStepKeepsInv := by
  intro s t hinv hstep
  have htaken : ∀ rest w, Inv { s.takeAccess rest with cmd := w } := fun _ _ => hinv.of_unread rfl
  obtain ⟨-, rfl⟩ | ⟨v, rest, i, -, -, hrun⟩ | ⟨v, rest, d, -, -, rfl⟩ | ⟨act, rest, -, -, rfl⟩ :=
    step_cases hstep
  · exact hinv
  · exact (htaken rest _).endsIn (exec_endsIn hrun)
  · exact (htaken rest _).logError _
  · exact (htaken rest s.cmd).afterAccess act

end Sys2Proof.Machine

/-! ## The command word: decoder, encoder and opcode map (R90 to R97) -/

namespace Sys2Proof.Machine

/-! ### The fields of a word, and the word of a command, as numbers (R90, R91) -/

theorem fieldOp_toNat (w : CommandWord) : (fieldOp w).toNat = w.toNat / 4096 := by
  rw [fieldOp, BitVec.extractLsb'_toNat, Nat.shiftRight_eq_div_pow]
  omega

theorem fieldZeroK_toNat (w : CommandWord) : (fieldZeroK w).toNat = w.toNat / 1024 % 4 := by
  rw [fieldZeroK, BitVec.extractLsb'_toNat, Nat.shiftRight_eq_div_pow]

theorem fieldFam_toNat (w : CommandWord) : (fieldFam w).toNat = w.toNat / 256 % 4 := by
  rw [fieldFam, BitVec.extractLsb'_toNat, Nat.shiftRight_eq_div_pow]

theorem fieldNlen_eq_mod (w : CommandWord) : fieldNlen w = w.toNat % 256 := by
  rw [fieldNlen, BitVec.extractLsb'_toNat, Nat.shiftRight_zero]

theorem fieldZeroN_toNat (w : CommandWord) : (fieldZeroN w).toNat = w.toNat % 4096 := by
  rw [fieldZeroN, BitVec.extractLsb'_toNat, Nat.shiftRight_zero]

theorem encodeKeyload_toNat (fam : BitVec 2) (nlen : Nat) :
    (encodeKeyload fam nlen).toNat = 4096 + 256 * fam.toNat + nlen % 256 := by
  simp only [encodeKeyload, toNat_append_eq_add, BitVec.toNat_ofNat]
  omega

theorem encodeNoOperand_toNat (op : BitVec 4) : (encodeNoOperand op).toNat = 4096 * op.toNat := by
  simp only [encodeNoOperand, toNat_append_eq_add, BitVec.toNat_ofNat]
  omega

theorem encodeKeyload_eq_iff {fam : BitVec 2} {nlen : Nat} {w : CommandWord} :
    encodeKeyload fam nlen = w ↔ w.toNat / 256 = 16 + fam.toNat ∧ nlen % 256 = w.toNat % 256 := by
  rw [← BitVec.toNat_inj, encodeKeyload_toNat]
  omega

theorem encodeNoOperand_eq_iff {op : BitVec 4} {w : CommandWord} :
    encodeNoOperand op = w ↔ w.toNat = 4096 * op.toNat := by
  rw [← BitVec.toNat_inj, encodeNoOperand_toNat, eq_comm]

/-! ### Decoding an encoding -/

/-- A key load's word reaches the table of families, with each field read back. -/
theorem decodeWord_encodeKeyload (fam : BitVec 2) {nlen : Nat} (h : nlen < 256) :
    decodeWord (encodeKeyload fam nlen) =
      if fam = 0#2 then .ok (.keyloadDes nlen)
      else if fam = 1#2 then .ok (.keyloadTdes nlen)
      else if fam = 2#2 then .ok (.keyloadAes nlen)
      else .error .reservedFamily := by
  have hlt := fam.isLt
  have hop : (fieldOp (encodeKeyload fam nlen)).toNat = 1 := by
    rw [fieldOp_toNat, encodeKeyload_toNat]; omega
  have hzero : fieldZeroK (encodeKeyload fam nlen) = 0#2 := by
    rw [← BitVec.toNat_inj, fieldZeroK_toNat, encodeKeyload_toNat, BitVec.toNat_ofNat]; omega
  have hfam : fieldFam (encodeKeyload fam nlen) = fam := by
    rw [← BitVec.toNat_inj, fieldFam_toNat, encodeKeyload_toNat]; omega
  have hnlen : fieldNlen (encodeKeyload fam nlen) = nlen := by
    rw [fieldNlen_eq_mod, encodeKeyload_toNat]; omega
  simp only [decodeWord, hop, decodeKeyload, hzero, hfam, hnlen]
  obtain rfl | rfl | rfl | rfl : fam = 0#2 ∨ fam = 1#2 ∨ fam = 2#2 ∨ fam = 3#2 := by bv_omega
  all_goals rfl

/-- Settles O2: a key load by the fields of its word, the other commands each by their one word. -/
theorem decodeEncodeRoundTrip : Obligations.DecodeEncodeRoundTrip := by
  intro i hi
  cases i with
  | keyloadDes nlen => exact decodeWord_encodeKeyload 0#2 (of_decide_eq_true hi)
  | keyloadTdes nlen => exact decodeWord_encodeKeyload 1#2 (of_decide_eq_true hi)
  | keyloadAes nlen => exact decodeWord_encodeKeyload 2#2 (of_decide_eq_true hi)
  | _ => rfl

/-! ### Encoding what was decoded -/

/-- A format N word that decodes is its `op` and nothing else. -/
theorem encode_of_decodeNoOperand {w : CommandWord} {i j : Instr} (op : BitVec 4)
    (hop : (fieldOp w).toNat = op.toNat) (hwf : i.wellFormed = true) (hi : encode i = encodeNoOperand op)
    (h : decodeNoOperand w i = .ok j) : j.wellFormed = true ∧ encode j = w := by
  unfold decodeNoOperand at h
  split at h
  · cases h
  next hzero =>
    cases h
    have hz : (fieldZeroN w).toNat = 0 := by rw [not_ne_iff.mp hzero]; rfl
    rw [fieldOp_toNat] at hop
    rw [fieldZeroN_toNat] at hz
    rw [hi, encodeNoOperand_eq_iff]
    exact ⟨hwf, by omega⟩

/-- A format K word that decodes has a family of R91, and its other bits are zero or `nlen`. -/
theorem encode_of_decodeKeyload {w : CommandWord} {i : Instr} (hop : (fieldOp w).toNat = 1)
    (h : decodeKeyload w = .ok i) : i.wellFormed = true ∧ encode i = w := by
  unfold decodeKeyload at h
  split at h
  · cases h
  next hzero =>
    have hz : (fieldZeroK w).toNat = 0 := by rw [not_ne_iff.mp hzero]; rfl
    rw [fieldOp_toNat] at hop
    rw [fieldZeroK_toNat] at hz
    have hnlen : nlenAdmitted (fieldNlen w) = true := decide_eq_true (BitVec.isLt _)
    have hword : ∀ fam : BitVec 2, (fieldFam w).toNat = fam.toNat → encodeKeyload fam (fieldNlen w) = w := by
      intro fam hfam
      rw [fieldFam_toNat] at hfam
      rw [encodeKeyload_eq_iff, fieldNlen_eq_mod]
      omega
    split at h <;> cases h
    case h_1 hfam => exact ⟨hnlen, hword 0#2 hfam⟩
    case h_2 hfam => exact ⟨hnlen, hword 1#2 hfam⟩
    case h_3 hfam => exact ⟨hnlen, hword 2#2 hfam⟩

/-- Settles O3, by the rows of the decoder's table. -/
theorem encodeDecodeRoundTrip : Obligations.EncodeDecodeRoundTrip := by
  intro w i h
  unfold decodeWord at h
  split at h
  next hop => exact encode_of_decodeKeyload hop h
  next hop => exact encode_of_decodeNoOperand 2#4 hop rfl rfl h
  next hop => exact encode_of_decodeNoOperand 3#4 hop rfl rfl h
  next hop => exact encode_of_decodeNoOperand 4#4 hop rfl rfl h
  next hop => exact encode_of_decodeNoOperand 5#4 hop rfl rfl h
  next hop => exact encode_of_decodeNoOperand 6#4 hop rfl rfl h
  next hop => exact encode_of_decodeNoOperand 7#4 hop rfl rfl h
  next => cases h

/-- The decoder answers with a command exactly on the words of well-formed commands. -/
theorem decodeWord_eq_ok_iff {w : CommandWord} {i : Instr} :
    decodeWord w = .ok i ↔ i.wellFormed = true ∧ encode i = w := by
  refine ⟨encodeDecodeRoundTrip w i, ?_⟩
  rintro ⟨hwf, rfl⟩
  exact decodeEncodeRoundTrip i hwf

/-- A word that is no well-formed command's is refused. -/
theorem decodeWord_error_of_forall_ne {w : CommandWord}
    (h : ∀ i : Instr, i.wellFormed = true → encode i ≠ w) : ∃ e, decodeWord w = .error e := by
  cases hw : decodeWord w with
  | error e => exact ⟨e, rfl⟩
  | ok i =>
    obtain ⟨hwf, hi⟩ := decodeWord_eq_ok_iff.mp hw
    exact absurd hi (h i hwf)

/-! ### The opcode map (R93) -/

/-- The mask of the format K rows keeps the high byte. -/
theorem and_highByte_toNat (w : CommandWord) : (w &&& 0xFF00#16).toNat = 256 * (w.toNat / 256) := by
  have hsplit : w.extractLsb' 8 8 ++ w.extractLsb' 0 8 = w :=
    (BitVec.extractLsb'_append_extractLsb'_eq_extractLsb' (start₁ := 0) rfl).trans BitVec.extractLsb'_eq_self
  have hmask : w &&& 0xFF00#16 = w.extractLsb' 8 8 ++ 0#8 := by
    calc w &&& 0xFF00#16 = (w.extractLsb' 8 8 ++ w.extractLsb' 0 8) &&& (BitVec.allOnes 8 ++ 0#8) := by
          rw [hsplit]; rfl
      _ = w.extractLsb' 8 8 ++ 0#8 := by rw [BitVec.and_append, BitVec.and_allOnes, BitVec.and_zero]
  rw [hmask, toNat_append_eq_add, BitVec.extractLsb'_toNat, Nat.shiftRight_eq_div_pow, BitVec.toNat_ofNat]
  omega

/-- A word selects a format K row when it is the word of that family with its own low byte as `nlen`. -/
theorem and_highByte_eq_iff {w p : CommandWord} {fam : BitVec 2} (hp : p.toNat = 4096 + 256 * fam.toNat) :
    (w &&& 0xFF00#16 == p) = true ↔ encodeKeyload fam (w.toNat % 256) = w := by
  rw [beq_iff_eq, ← BitVec.toNat_inj, and_highByte_toNat, hp, encodeKeyload_eq_iff]
  omega

/-- A word selects a format N row when it is that row's match. -/
theorem and_allBits_eq_iff {w p : CommandWord} : (w &&& 0xFFFF#16 == p) = true ↔ p = w := by
  rw [beq_iff_eq, show (0xFFFF#16 : CommandWord) = BitVec.allOnes 16 from rfl, BitVec.and_allOnes, eq_comm]

/-- Each command a word could select is well-formed, and the word selects its row exactly when it is its encoding. -/
theorem commandsOf_spec (w : CommandWord) :
    ∀ i ∈ commandsOf w, i.wellFormed = true ∧ (selectsRow w i = true ↔ encode i = w) := by
  have hnlen : nlenAdmitted (w.toNat % 256) = true := decide_eq_true (Nat.mod_lt _ (by decide))
  intro i hi
  simp only [commandsOf, List.mem_cons, List.not_mem_nil, or_false] at hi
  obtain rfl | rfl | rfl | rfl | rfl | rfl | rfl | rfl | rfl := hi
  · exact ⟨hnlen, and_highByte_eq_iff (fam := 0#2) rfl⟩
  · exact ⟨hnlen, and_highByte_eq_iff (fam := 1#2) rfl⟩
  · exact ⟨hnlen, and_highByte_eq_iff (fam := 2#2) rfl⟩
  all_goals exact ⟨rfl, and_allBits_eq_iff⟩

/-- So a word's row is the row of what it decodes to. -/
theorem selectsRow_iff_decodeWord {w : CommandWord} {i : Instr} (h : i ∈ commandsOf w) :
    selectsRow w i = true ↔ decodeWord w = .ok i := by
  obtain ⟨hwf, hsel⟩ := commandsOf_spec w i h
  rw [hsel, decodeWord_eq_ok_iff, and_iff_right hwf]

theorem mem_commandsOf_encode {i : Instr} (h : i.wellFormed = true) : i ∈ commandsOf (encode i) := by
  have hlow : ∀ (fam : BitVec 2) (nlen : Nat), nlenAdmitted nlen = true →
      (encodeKeyload fam nlen).toNat % 256 = nlen := by
    intro fam nlen hn
    have hlt : nlen < 256 := of_decide_eq_true hn
    rw [encodeKeyload_toNat]
    omega
  cases i with
  | keyloadDes nlen => simp [commandsOf, encode, hlow 0#2 nlen h]
  | keyloadTdes nlen => simp [commandsOf, encode, hlow 1#2 nlen h]
  | keyloadAes nlen => simp [commandsOf, encode, hlow 2#2 nlen h]
  | _ => simp [commandsOf]

/-- Settles O4: the selected row is the decoded command's, of which there is at most one; and a word that decodes
selects a row. -/
theorem decoderFollowsTheOpcodeMap : Obligations.DecoderFollowsTheOpcodeMap := by
  intro w
  refine ⟨fun i hi => (selectsRow_iff_decodeWord hi).mp, fun i hi j hj hseli hselj => ?_, fun hnone => ?_⟩
  · have hdec : (.ok i : Except DecodeError Instr) = .ok j :=
      ((selectsRow_iff_decodeWord hi).mp hseli).symm.trans ((selectsRow_iff_decodeWord hj).mp hselj)
    cases hdec
    rfl
  · refine decodeWord_error_of_forall_ne ?_
    rintro i hwf rfl
    have hmem := mem_commandsOf_encode hwf
    have hsel := ((commandsOf_spec (encode i) i hmem).2).mpr rfl
    rw [hnone i hmem] at hsel
    cases hsel

/-! ### Illegal words (R94) -/

/-- The words R94 lists, as numbers. -/
def ListedIllegal (w : Nat) : Prop :=
  w / 4096 = 0 ∨ 8 ≤ w / 4096 ∨
  (w / 4096 = 1 ∧ (w / 256 % 4 = 3 ∨ w / 1024 % 4 ≠ 0)) ∨
  (2 ≤ w / 4096 ∧ w / 4096 ≤ 7 ∧ w % 4096 ≠ 0)

theorem not_listedIllegal_encodeKeyload {fam : BitVec 2} (nlen : Nat) (h : fam.toNat ≤ 2) :
    ¬ ListedIllegal (encodeKeyload fam nlen).toNat := by
  rw [encodeKeyload_toNat, ListedIllegal]
  omega

theorem not_listedIllegal_encodeNoOperand {op : BitVec 4} (hlow : 2 ≤ op.toNat) (hhigh : op.toNat ≤ 7) :
    ¬ ListedIllegal (encodeNoOperand op).toNat := by
  rw [encodeNoOperand_toNat, ListedIllegal]
  omega

/-- R94 lists no command's word. -/
theorem not_listedIllegal_encode (i : Instr) : ¬ ListedIllegal (encode i).toNat := by
  cases i with
  | keyloadDes nlen => exact not_listedIllegal_encodeKeyload nlen (by decide)
  | keyloadTdes nlen => exact not_listedIllegal_encodeKeyload nlen (by decide)
  | keyloadAes nlen => exact not_listedIllegal_encodeKeyload nlen (by decide)
  | _ => exact not_listedIllegal_encodeNoOperand (by decide) (by decide)

theorem decodeWord_error_of_listedIllegal {w : CommandWord} (h : ListedIllegal w.toNat) :
    ∃ e, decodeWord w = .error e := by
  refine decodeWord_error_of_forall_ne ?_
  rintro i - rfl
  exact not_listedIllegal_encode i h

/-- Settles O5: a listed word is refused, and the step of a refused word raises `IllegalCommand`. -/
theorem illegalWordRunsNothing : Obligations.IllegalWordRunsNothing := by
  intro s v rest hq hlisted
  obtain ⟨e, he⟩ := decodeWord_error_of_listedIllegal hlisted
  rw [step_of_cons hq]
  exact writeCmd_eq_next.mpr (.inr ⟨e, he, rfl⟩)

/-! ### Pseudo-commands (R97) -/

/-- Settles O1: each word is evaluated, and the round trip gives its decoding. -/
theorem pseudoCommandWordsDecode : Obligations.PseudoCommandWordsDecode :=
  ⟨⟨rfl, rfl, decodeEncodeRoundTrip klDes rfl⟩, ⟨rfl, rfl, decodeEncodeRoundTrip klTdes rfl⟩,
    ⟨rfl, rfl, decodeEncodeRoundTrip klAes128 rfl⟩, ⟨rfl, rfl, decodeEncodeRoundTrip klAes192 rfl⟩,
    rfl, rfl, decodeEncodeRoundTrip klAes256 rfl⟩

end Sys2Proof.Machine

/-! ## The two directions of DES and Triple-DES (R158, R214, R234) -/

namespace Sys2Proof.Machine

/-- When `second` sends every position to where `first` took its bit from, the two permutations cancel (R151). -/
theorem permute_permute_cancel {w : Nat} {first second : List Nat} (hfirst : first.length = w)
    (hsecond : second.length = w)
    (h : ∀ i < w, (second[i]?).getD w < w ∧ (first[(second[i]?).getD w]?).getD w = i) (x : BitVec w) :
    permute second w (permute first w x) = x := by
  refine eq_of_getMsbD fun i hi => ?_
  obtain ⟨hlt, hback⟩ := h i hi
  rw [permute_getMsbD second w _ hsecond i hi, permute_getMsbD first w x hfirst _ hlt, hback]

theorem permute_fp_ip (v : BitVec 64) : permute fpTable 64 (permute ipTable 64 v) = v :=
  permute_permute_cancel (w := 64) rfl rfl (by decide) v

theorem permute_ip_fp (v : BitVec 64) : permute ipTable 64 (permute fpTable 64 v) = v :=
  permute_permute_cancel (w := 64) rfl rfl (by decide) v

theorem desSplit_desJoin (lr : BitVec 32 × BitVec 32) : desSplit (desJoin lr) = lr.swap := by
  rw [desSplit, desJoin, permute_ip_fp]
  refine Prod.ext ?_ ?_
  · exact BitVec.extractLsb'_append_eq_left
  · exact BitVec.extractLsb'_append_eq_right

theorem desJoin_swap_desSplit (block : BitVec 64) : desJoin (desSplit block).swap = block := by
  rw [desJoin, desSplit]
  have hhalves (t : BitVec 64) : t.extractLsb' 32 32 ++ t.extractLsb' 0 32 = t := by
    rw [BitVec.extractLsb'_append_extractLsb'_eq_extractLsb' (by decide)]
    exact BitVec.extractLsb'_eq_self
  exact (congrArg _ (hhalves _)).trans (permute_fp_ip block)

/-- A Feistel round undoes itself on the swapped halves, whatever the round function is (R214). -/
theorem desRound_swap_desRound (lr : BitVec 32 × BitVec 32) (k : BitVec 48) :
    desRound (desRound lr k).swap k = lr.swap := by
  simp [desRound, Prod.swap]

theorem desRounds_reverse_swap (ks : List (BitVec 48)) (lr : BitVec 32 × BitVec 32) :
    desRounds ks.reverse (desRounds ks lr).swap = lr.swap := by
  induction ks generalizing lr with
  | nil => rfl
  | cons k ks ih =>
    calc desRounds (k :: ks).reverse (desRounds (k :: ks) lr).swap
        = desRound (desRounds ks.reverse (desRounds ks (desRound lr k)).swap) k := by
          simp [desRounds]
      _ = lr.swap := by rw [ih, desRound_swap_desRound]

theorem desTransform_reverse (ks : List (BitVec 48)) (block : BitVec 64) :
    desTransform ks.reverse (desTransform ks block) = block := by
  simp only [desTransform]
  rw [desSplit_desJoin, desRounds_reverse_swap, desJoin_swap_desSplit]

@[simp] theorem desDecrypt_desEncrypt (block : BitVec 64) (sub : DesSchedule) :
    desDecrypt (desEncrypt block sub) sub = block := desTransform_reverse sub.toList block

@[simp] theorem desEncrypt_desDecrypt (block : BitVec 64) (sub : DesSchedule) :
    desEncrypt (desDecrypt block sub) sub = block := by
  have h := desTransform_reverse sub.toList.reverse block
  rwa [List.reverse_reverse] at h

@[simp] theorem tdesDecrypt_tdesEncrypt (block : BitVec 64) (s1 s2 s3 : DesSchedule) :
    tdesDecrypt (tdesEncrypt block s1 s2 s3) s1 s2 s3 = block := by
  simp [tdesEncrypt, tdesDecrypt]

@[simp] theorem tdesEncrypt_tdesDecrypt (block : BitVec 64) (s1 s2 s3 : DesSchedule) :
    tdesEncrypt (tdesDecrypt block s1 s2 s3) s1 s2 s3 = block := by
  simp [tdesEncrypt, tdesDecrypt]

end Sys2Proof.Machine

/-! ## The AES steps and their inverses (R240, R271 to R277) -/

namespace Sys2Proof.Machine

/-! ### The S-boxes and the rows -/

theorem ainv_asbox (a : Byte) : ainv (asbox a) = a := by
  revert a
  decide +kernel

theorem asbox_ainv (a : Byte) : asbox (ainv a) = a := by
  revert a
  decide +kernel

theorem invSubBytes_subBytes (s : AesBlock) : invSubBytes (subBytes s) = s := by
  simp [invSubBytes, subBytes, ainv_asbox, Function.comp_def]

theorem subBytes_invSubBytes (s : AesBlock) : subBytes (invSubBytes s) = s := by
  simp [invSubBytes, subBytes, asbox_ainv, Function.comp_def]

theorem invShiftRows_shiftRows (s : AesBlock) : invShiftRows (shiftRows s) = s := by
  refine Vector.ext fun i hi => ?_
  simp only [invShiftRows, shiftRows, Vector.getElem_ofFn]
  congr 1
  omega

theorem shiftRows_invShiftRows (s : AesBlock) : shiftRows (invShiftRows s) = s := by
  refine Vector.ext fun i hi => ?_
  simp only [invShiftRows, shiftRows, Vector.getElem_ofFn]
  congr 1
  omega

/-- Each byte is looked up by itself, so the order of the two steps does not matter (R282). -/
theorem invShiftRows_invSubBytes (s : AesBlock) : invShiftRows (invSubBytes s) = undoSubShift s := by
  refine Vector.ext fun i hi => ?_
  simp [undoSubShift, invShiftRows, invSubBytes]

theorem undoSubShift_shiftRows_subBytes (s : AesBlock) : undoSubShift (shiftRows (subBytes s)) = s := by
  rw [undoSubShift, invShiftRows_shiftRows, invSubBytes_subBytes]

theorem shiftRows_subBytes_undoSubShift (s : AesBlock) : shiftRows (subBytes (undoSubShift s)) = s := by
  rw [undoSubShift, subBytes_invSubBytes, shiftRows_invShiftRows]

/-! ### The columns: every coefficient is a sum of powers of `xtime`, which is linear -/

theorem xor_left_comm {w : Nat} (x y z : BitVec w) : x ^^^ (y ^^^ z) = y ^^^ (x ^^^ z) := by
  ac_rfl

theorem xtime_xor (a b : Byte) : xtime (a ^^^ b) = xtime a ^^^ xtime b := by
  simp only [xtime, BitVec.getLsbD_xor, BitVec.shiftLeft_xor_distrib]
  cases a.getLsbD 7 <;> cases b.getLsbD 7 <;>
    simp [BitVec.xor_assoc, BitVec.xor_comm, xor_left_comm]

theorem xtimes_xor (n : Nat) (a b : Byte) : xtimes n (a ^^^ b) = xtimes n a ^^^ xtimes n b := by
  induction n with
  | zero => rfl
  | succ n ih => simp only [xtimes, ih, xtime_xor]

/-- The loop of `gmul` adds the products of two bytes, from any accumulators (R240). -/
theorem foldl_gmul_xor (c a b : Byte) (is : List Nat) (acc acc' : Byte) :
    is.foldl (fun t i => if c.getLsbD i then t ^^^ xtimes i (a ^^^ b) else t) (acc ^^^ acc') =
      is.foldl (fun t i => if c.getLsbD i then t ^^^ xtimes i a else t) acc ^^^
        is.foldl (fun t i => if c.getLsbD i then t ^^^ xtimes i b else t) acc' := by
  induction is generalizing acc acc' with
  | nil => rfl
  | cons i is ih =>
    simp only [List.foldl_cons]
    split
    · rw [← ih, xtimes_xor]
      congr 1
      ac_rfl
    · exact ih acc acc'

theorem gmul_xor_left (a b c : Byte) : gmul (a ^^^ b) c = gmul a c ^^^ gmul b c :=
  foldl_gmul_xor c a b (List.range 8) 0#8 0#8

theorem mixColumn_xor (a b : AesWord) : mixColumn (a.xor b) = (mixColumn a).xor (mixColumn b) := by
  simp only [mixColumn, AesWord.xor, gmul_xor_left, AesWord.mk.injEq]
  refine ⟨?_, ?_, ?_, ?_⟩ <;> ac_rfl

theorem invMixColumn_xor (a b : AesWord) : invMixColumn (a.xor b) = (invMixColumn a).xor (invMixColumn b) := by
  simp only [invMixColumn, AesWord.xor, gmul_xor_left, AesWord.mk.injEq]
  refine ⟨?_, ?_, ?_, ?_⟩ <;> ac_rfl

/-- An additive map of columns that keeps every column with one byte is the identity. -/
theorem eq_self_of_additive {f : AesWord → AesWord} (hadd : ∀ a b, f (a.xor b) = (f a).xor (f b))
    (h0 : ∀ b, f ⟨b, 0#8, 0#8, 0#8⟩ = ⟨b, 0#8, 0#8, 0#8⟩) (h1 : ∀ b, f ⟨0#8, b, 0#8, 0#8⟩ = ⟨0#8, b, 0#8, 0#8⟩)
    (h2 : ∀ b, f ⟨0#8, 0#8, b, 0#8⟩ = ⟨0#8, 0#8, b, 0#8⟩) (h3 : ∀ b, f ⟨0#8, 0#8, 0#8, b⟩ = ⟨0#8, 0#8, 0#8, b⟩)
    (a : AesWord) : f a = a := by
  have hsum : a = (AesWord.xor ⟨a.b0, 0#8, 0#8, 0#8⟩ ⟨0#8, a.b1, 0#8, 0#8⟩).xor
      (AesWord.xor ⟨0#8, 0#8, a.b2, 0#8⟩ ⟨0#8, 0#8, 0#8, a.b3⟩) := by
    simp [AesWord.xor]
  rw [hsum, hadd, hadd, hadd, h0, h1, h2, h3]

theorem gmul_02 (a : Byte) : gmul a 0x02#8 = xtime a := BitVec.zero_xor

theorem gmul_03 (a : Byte) : gmul a 0x03#8 = a ^^^ xtime a := by
  simp [gmul, List.range, List.range.loop, xtimes]

theorem gmul_09 (a : Byte) : gmul a 0x09#8 = a ^^^ xtime (xtime (xtime a)) := by
  simp [gmul, List.range, List.range.loop, xtimes]

theorem gmul_0B (a : Byte) : gmul a 0x0B#8 = a ^^^ xtime a ^^^ xtime (xtime (xtime a)) := by
  simp [gmul, List.range, List.range.loop, xtimes]

theorem gmul_0D (a : Byte) : gmul a 0x0D#8 = a ^^^ xtime (xtime a) ^^^ xtime (xtime (xtime a)) := by
  simp [gmul, List.range, List.range.loop, xtimes]

theorem gmul_0E (a : Byte) : gmul a 0x0E#8 = xtime a ^^^ xtime (xtime a) ^^^ xtime (xtime (xtime a)) := by
  simp [gmul, List.range, List.range.loop, xtimes]

theorem zero_gmul (c : Byte) : gmul 0#8 c = 0#8 := by
  have h := gmul_xor_left 0#8 0#8 c
  rwa [BitVec.xor_self, BitVec.xor_self] at h

/-- The two coefficient matrices are inverse already as polynomials in `xtime`, without the reduction by `0x11B`. -/
theorem invMixColumn_mixColumn (a : AesWord) : invMixColumn (mixColumn a) = a := by
  refine eq_self_of_additive (f := fun a => invMixColumn (mixColumn a))
    (fun a b => by simp only [mixColumn_xor, invMixColumn_xor]) ?_ ?_ ?_ ?_ a
  all_goals
    intro b
    simp only [mixColumn, zero_gmul, BitVec.xor_zero, BitVec.zero_xor]
    simp only [invMixColumn, gmul_02, gmul_03, gmul_09, gmul_0B, gmul_0D, gmul_0E, xtime_xor]
    simp [BitVec.xor_assoc, BitVec.xor_comm, xor_left_comm]

theorem mixColumn_invMixColumn (a : AesWord) : mixColumn (invMixColumn a) = a := by
  refine eq_self_of_additive (f := fun a => mixColumn (invMixColumn a))
    (fun a b => by simp only [mixColumn_xor, invMixColumn_xor]) ?_ ?_ ?_ ?_ a
  all_goals
    intro b
    simp only [invMixColumn, zero_gmul, BitVec.xor_zero, BitVec.zero_xor]
    simp only [mixColumn, gmul_02, gmul_03, gmul_09, gmul_0B, gmul_0D, gmul_0E, xtime_xor]
    simp [BitVec.xor_assoc, BitVec.xor_comm, xor_left_comm]

/-! ### Whole states -/

theorem mapColumns_mapColumns (f g : AesWord → AesWord) (s : AesBlock) :
    mapColumns f (mapColumns g s) = mapColumns (fun a => f (g a)) s := rfl

theorem mapColumns_id (s : AesBlock) : mapColumns (fun a => a) s = s := by
  refine Vector.ext fun i hi => ?_
  interval_cases i <;> rfl

theorem invMixColumns_mixColumns (s : AesBlock) : invMixColumns (mixColumns s) = s := by
  rw [invMixColumns, mixColumns, mapColumns_mapColumns, funext invMixColumn_mixColumn, mapColumns_id]

theorem mixColumns_invMixColumns (s : AesBlock) : mixColumns (invMixColumns s) = s := by
  rw [invMixColumns, mixColumns, mapColumns_mapColumns, funext mixColumn_invMixColumn, mapColumns_id]

theorem addRoundKey_addRoundKey (s k : AesBlock) : addRoundKey (addRoundKey s k) k = s := by
  refine Vector.ext fun i hi => ?_
  simp [addRoundKey]

theorem ofColumns_xor (a0 a1 a2 a3 b0 b1 b2 b3 : AesWord) :
    ofColumns (a0.xor b0) (a1.xor b1) (a2.xor b2) (a3.xor b3) =
      addRoundKey (ofColumns a0 a1 a2 a3) (ofColumns b0 b1 b2 b3) := by
  simp [ofColumns, addRoundKey, AesWord.xor]

/-- An additive map of columns is additive on whole states (R276, R282). -/
theorem mapColumns_addRoundKey {f : AesWord → AesWord} (hadd : ∀ a b, f (a.xor b) = (f a).xor (f b))
    (s k : AesBlock) : mapColumns f (addRoundKey s k) = addRoundKey (mapColumns f s) (mapColumns f k) := by
  simp only [mapColumns, ← ofColumns_xor, ← hadd]
  simp [addRoundKey, AesWord.xor]

theorem invMixColumns_addRoundKey (s k : AesBlock) :
    invMixColumns (addRoundKey s k) = addRoundKey (invMixColumns s) (invMixColumns k) :=
  mapColumns_addRoundKey invMixColumn_xor s k

end Sys2Proof.Machine

/-! ## The two directions of AES (R280 to R282) -/

namespace Sys2Proof.Machine

/-- The keys of the full rounds, in the order in which encryption uses them (R280). -/
def middleKeys (rk : RoundKeys) (nr : Nat) : List AesBlock :=
  (List.range (nr - 1)).map fun r => keyAt rk (r + 1)

/-- What undoes a full round: the body of the direct inverse's loop (R282). -/
def undoRound (s k : AesBlock) : AesBlock := undoSubShift (invMixColumns (addRoundKey s k))

theorem undoRound_aesRound (s k : AesBlock) : undoRound (aesRound s k) k = s := by
  rw [undoRound, aesRound, addRoundKey_addRoundKey, invMixColumns_mixColumns, undoSubShift_shiftRows_subBytes]

theorem aesRound_undoRound (s k : AesBlock) : aesRound (undoRound s k) k = s := by
  rw [undoRound, aesRound, shiftRows_subBytes_undoSubShift, mixColumns_invMixColumns, addRoundKey_addRoundKey]

/-- A full round of the equivalent inverse is the same step taken behind `undoSubShift`, when its key is transformed. -/
theorem undoSubShift_aesInvRound (s k : AesBlock) :
    undoSubShift (aesInvRound s (invMixColumns k)) = undoRound (undoSubShift s) k := by
  rw [undoRound, aesInvRound, invShiftRows_invSubBytes, invMixColumns_addRoundKey]

/-- Steps that undo one another, taken back in reverse order. -/
theorem foldl_reverse_foldl {α κ : Type} {f g : α → κ → α} (hundo : ∀ a k, g (f a k) k = a) (ks : List κ)
    (a : α) : ks.reverse.foldl g (ks.foldl f a) = a := by
  induction ks generalizing a with
  | nil => rfl
  | cons k ks ih => simp [ih, hundo]

theorem aesEncrypt_eq (block : AesBlock) (rk : RoundKeys) (nr : Nat) :
    aesEncrypt block rk nr =
      aesFinalRound ((middleKeys rk nr).foldl aesRound (addRoundKey block (keyAt rk 0))) (keyAt rk nr) := by
  rw [aesEncrypt, middleKeys, List.foldl_map]

theorem reverse_middleKeys (rk : RoundKeys) (nr : Nat) :
    (middleKeys rk nr).reverse = (List.range (nr - 1)).map fun k => keyAt rk (nr - (k + 1)) := by
  refine List.ext_getElem (by simp [middleKeys]) fun i hi _ => ?_
  have hi' : i < nr - 1 := by simpa [middleKeys] using hi
  have hindex : nr - 1 - 1 - i + 1 = nr - (i + 1) := by omega
  simp [middleKeys, hindex]

theorem directDecrypt_eq (block : AesBlock) (rk : RoundKeys) (nr : Nat) :
    directDecrypt block rk nr =
      addRoundKey ((middleKeys rk nr).reverse.foldl undoRound (undoSubShift (addRoundKey block (keyAt rk nr))))
        (keyAt rk 0) := by
  rw [directDecrypt, reverse_middleKeys, List.foldl_map]
  rfl

/-- The keys of the equivalent inverse's full rounds are those of the direct inverse, transformed (R247). -/
theorem DecryptHalfOf.map_keyAt {rk : RoundKeys} {nr : Nat} (h : DecryptHalfOf rk nr) :
    ((List.range (nr - 1)).map fun r => keyAt rk (nr + (r + 1))) = (middleKeys rk nr).reverse.map invMixColumns := by
  rw [reverse_middleKeys, List.map_map]
  refine List.map_congr_left fun r hr => ?_
  rw [List.mem_range] at hr
  exact h (r + 1) (by omega) (by omega)

theorem aesDecrypt_eq {rk : RoundKeys} {nr : Nat} (h : DecryptHalfOf rk nr) (block : AesBlock) :
    aesDecrypt block rk nr =
      aesInvFinalRound
        (((middleKeys rk nr).reverse.map invMixColumns).foldl aesInvRound (addRoundKey block (keyAt rk nr)))
        (keyAt rk 0) := by
  rw [aesDecrypt, ← h.map_keyAt, List.foldl_map]

/-- The equivalent inverse cipher computes the direct inverse (R282). -/
theorem aesDecrypt_eq_directDecrypt {rk : RoundKeys} {nr : Nat} (h : DecryptHalfOf rk nr) (block : AesBlock) :
    aesDecrypt block rk nr = directDecrypt block rk nr := by
  rw [aesDecrypt_eq h, directDecrypt_eq, aesInvFinalRound, invShiftRows_invSubBytes, List.foldl_map]
  rw [List.foldl_hom (f := undoSubShift) (H := fun s k => (undoSubShift_aesInvRound s k).symm)]

theorem directDecrypt_aesEncrypt (block : AesBlock) (rk : RoundKeys) (nr : Nat) :
    directDecrypt (aesEncrypt block rk nr) rk nr = block := by
  rw [directDecrypt_eq, aesEncrypt_eq, aesFinalRound, addRoundKey_addRoundKey, undoSubShift_shiftRows_subBytes,
    foldl_reverse_foldl undoRound_aesRound, addRoundKey_addRoundKey]

theorem aesEncrypt_directDecrypt (block : AesBlock) (rk : RoundKeys) (nr : Nat) :
    aesEncrypt (directDecrypt block rk nr) rk nr = block := by
  have hback := foldl_reverse_foldl aesRound_undoRound (middleKeys rk nr).reverse
  rw [List.reverse_reverse] at hback
  rw [directDecrypt_eq, aesEncrypt_eq, addRoundKey_addRoundKey, hback, aesFinalRound,
    shiftRows_subBytes_undoSubShift, addRoundKey_addRoundKey]

theorem aesDecrypt_aesEncrypt {rk : RoundKeys} {nr : Nat} (h : DecryptHalfOf rk nr) (block : AesBlock) :
    aesDecrypt (aesEncrypt block rk nr) rk nr = block := by
  rw [aesDecrypt_eq_directDecrypt h, directDecrypt_aesEncrypt]

theorem aesEncrypt_aesDecrypt {rk : RoundKeys} {nr : Nat} (h : DecryptHalfOf rk nr) (block : AesBlock) :
    aesEncrypt (aesDecrypt block rk nr) rk nr = block := by
  rw [aesDecrypt_eq_directDecrypt h, aesEncrypt_directDecrypt]

end Sys2Proof.Machine

/-! ## The cipher in the key slot as a pair of inverse block functions (R124, R125, R129) -/

namespace Sys2Proof.Machine

/-! ### A block and its sixteen bytes -/

theorem getElem_toAesBlock (x : Block) {j : Nat} (hj : j < 16) :
    (toAesBlock x)[j] = x.extractLsb' (120 - 8 * j) 8 := by
  simp [toAesBlock]

@[simp] theorem toAesBlock_ofAesBlock (b : AesBlock) : toAesBlock (ofAesBlock b) = b := by
  refine Vector.ext fun j hj => ?_
  have hlen : b.toList.length = 16 := Vector.length_toList
  have hbyte := extractLsb'_beValue b.toList (by omega) j (by omega)
  have hplace : 8 * (b.toList.length - 1 - j) = 120 - 8 * j := by omega
  rw [hplace] at hbyte
  rw [getElem_toAesBlock _ hj, ofAesBlock, hbyte, Vector.getElem_toList]

/-- Bit `k` of a block stands in byte `15 - k / 8`. -/
theorem toAesBlock_injective {x y : Block} (h : toAesBlock x = toAesBlock y) : x = y := by
  refine BitVec.eq_of_getLsbD_eq fun k hk => ?_
  have hj : 15 - k / 8 < 16 := by omega
  have hbit (z : Block) : ((toAesBlock z)[15 - k / 8]).getLsbD (k % 8) = z.getLsbD k := by
    have hplace : 120 - 8 * (15 - k / 8) + k % 8 = k := by omega
    rw [getElem_toAesBlock z hj, BitVec.getLsbD_extractLsb', hplace]
    simp [Nat.mod_lt]
  rw [← hbit x, ← hbit y, h]

@[simp] theorem ofAesBlock_toAesBlock (x : Block) : ofAesBlock (toAesBlock x) = x :=
  toAesBlock_injective (toAesBlock_ofAesBlock (toAesBlock x))

/-! ### Which cipher each `ALG` names (R124) -/

theorem cipher_of_des {s : State} (h : s.alg = .des) : s.cipher = some (.des s.dk[0]) := by
  rw [State.cipher, h]

theorem cipher_of_tdes {s : State} (h : s.alg = .tdes) : s.cipher = some (.tdes s.dk[0] s.dk[1] s.dk[2]) := by
  rw [State.cipher, h]

theorem cipher_eq_aes_iff {s : State} {rk : RoundKeys} {nr : Nat} :
    s.cipher = some (.aes rk nr) ↔ s.rka = rk ∧ s.alg.aesRounds = some nr := by
  unfold State.cipher
  cases s.alg <;> simp [Alg.aesRounds]

/-! ### Each direction undoes the other -/

/-- An AES cipher has the decryption half of its keys (R282). Nothing is asked of the others. -/
def Cipher.HasDecryptHalf (c : Cipher) : Prop := ∀ rk nr, c = .aes rk nr → DecryptHalfOf rk nr

theorem KeySlotWf.hasDecryptHalf {s : State} {c : Cipher} (h : KeySlotWf s) (hc : s.cipher = some c) :
    c.HasDecryptHalf := by
  rintro rk nr rfl
  obtain ⟨rfl, hrounds⟩ := cipher_eq_aes_iff.mp hc
  exact (h.rkaUsed nr hrounds).decryptHalf

theorem Cipher.decrypt_encrypt {c : Cipher} (h : c.HasDecryptHalf) (x : Block) :
    c.decrypt (c.encrypt x) = c.narrow x := by
  cases c with
  | des sub => simp [Cipher.decrypt, Cipher.encrypt, Cipher.narrow, Cipher.width]
  | tdes s1 s2 s3 => simp [Cipher.decrypt, Cipher.encrypt, Cipher.narrow, Cipher.width]
  | aes rk nr => simp [Cipher.decrypt, Cipher.encrypt, Cipher.narrow, Cipher.width, aesDecrypt_aesEncrypt (h rk nr rfl)]

theorem Cipher.encrypt_decrypt {c : Cipher} (h : c.HasDecryptHalf) (x : Block) :
    c.encrypt (c.decrypt x) = c.narrow x := by
  cases c with
  | des sub => simp [Cipher.decrypt, Cipher.encrypt, Cipher.narrow, Cipher.width]
  | tdes s1 s2 s3 => simp [Cipher.decrypt, Cipher.encrypt, Cipher.narrow, Cipher.width]
  | aes rk nr => simp [Cipher.decrypt, Cipher.encrypt, Cipher.narrow, Cipher.width, aesEncrypt_aesDecrypt (h rk nr rfl)]

/-- Settles O46: the invariant supplies the decryption half of the round keys of AES. -/
theorem blockDirectionsAreInverse : Obligations.BlockDirectionsAreInverse := by
  intro s c hinv hc x
  have hhalf := hinv.keySlot.hasDecryptHalf hc
  rw [← narrow_of_cipher hc]
  exact ⟨Cipher.decrypt_encrypt hhalf x, Cipher.encrypt_decrypt hhalf x⟩

end Sys2Proof.Machine

/-! ## The commands on one block (R126, R127) -/

namespace Sys2Proof.Machine

theorem raise_noKey (s : State) :
    raise .noKey s = .next { s with err := .noKey, elog := s.elog ||| 0b00010#5 } := rfl

theorem withCipher_of_none {s : State} (h : s.alg = .none) (run : Cipher → Result) :
    withCipher s run = raise .noKey s := by
  rw [withCipher, cipher_eq_none.mpr h]

theorem withCipher_of_some {s : State} {c : Cipher} (h : s.cipher = some c) (run : Cipher → Result) :
    withCipher s run = run c := by
  rw [withCipher, h]

/-- What a command does that needs a cipher and writes `DOUT`, for each kind of cipher and for none (R126, R127). -/
theorem withCipher_writeDout_cases (s : State) (value : Cipher → Block) :
    (s.alg = .none → withCipher s (fun c => writeDout (value c) s) =
      .next { s with err := .noKey, elog := s.elog ||| 0b00010#5 }) ∧
    (s.alg = .des → withCipher s (fun c => writeDout (value c) s) =
      .next { s with dout := value (.des s.dk[0]), err := .ok }) ∧
    (s.alg = .tdes → withCipher s (fun c => writeDout (value c) s) =
      .next { s with dout := value (.tdes s.dk[0] s.dk[1] s.dk[2]), err := .ok }) ∧
    (∀ nr, s.alg.aesRounds = some nr → withCipher s (fun c => writeDout (value c) s) =
      .next { s with dout := value (.aes s.rka nr), err := .ok }) :=
  ⟨fun h => (withCipher_of_none h _).trans (raise_noKey s), fun h => withCipher_of_some (cipher_of_des h) _,
    fun h => withCipher_of_some (cipher_of_tdes h) _, fun _ h => withCipher_of_some (cipher_eq_aes_iff.mpr ⟨rfl, h⟩) _⟩

/-- Settles O44: `BlockEncrypt` of each kind of cipher. -/
theorem encWritesTheCiphertext : Obligations.EncWritesTheCiphertext :=
  ⟨rfl, fun s => withCipher_writeDout_cases s fun c => c.encrypt s.din⟩

/-- Settles O45: `BlockDecrypt` of each kind of cipher. -/
theorem decWritesThePlaintext : Obligations.DecWritesThePlaintext :=
  ⟨rfl, fun s => withCipher_writeDout_cases s fun c => c.decrypt s.din⟩

theorem exec_enc_of_cipher {s : State} {c : Cipher} (h : s.cipher = some c) :
    exec .enc s = .next { s with dout := c.encrypt s.din, err := .ok } := withCipher_of_some h _

theorem exec_dec_of_cipher {s : State} {c : Cipher} (h : s.cipher = some c) :
    exec .dec s = .next { s with dout := c.decrypt s.din, err := .ok } := withCipher_of_some h _

/-- Settles O47: the first command leaves the key slot, so the second runs on the same cipher. -/
theorem encThenDecGivesTheBlockBack : Obligations.EncThenDecGivesTheBlockBack := by
  intro s hinv halg
  obtain ⟨c, hc⟩ := cipher_isSome halg
  obtain ⟨hdecEnc, hencDec⟩ := blockDirectionsAreInverse s c hinv hc s.din
  exact ⟨⟨_, _, exec_enc_of_cipher hc, rfl, exec_dec_of_cipher hc, hdecEnc, rfl⟩,
    ⟨_, _, exec_dec_of_cipher hc, rfl, exec_enc_of_cipher hc, hencDec, rfl⟩⟩

end Sys2Proof.Machine

/-! ## Key load and key clear (R121 to R123, R128) -/

namespace Sys2Proof.Machine

theorem raise_invalidKeySize (s : State) :
    raise .invalidKeySize s = .next { s with err := .invalidKeySize, elog := s.elog ||| 0b00001#5 } := rfl

/-- The word of a key load whose `nlen` fits its field (R90, R91). -/
theorem encodeKeyload_toNat_of_lt (fam : BitVec 2) {nlen : Nat} (h : nlen < 256) :
    (encodeKeyload fam nlen).toNat = 0x1000 + 0x100 * fam.toNat + nlen := by
  rw [encodeKeyload_toNat, Nat.mod_eq_of_lt h]

theorem execKeyloadDes_fourteen (s : State) :
    execKeyloadDes 14 s =
      succeed (s.loadKeySlot .des #v[loadedSchedule s 0, zeroSchedule, zeroSchedule] zeroRoundKeys) :=
  if_pos rfl

theorem execKeyloadDes_of_ne {nlen : Nat} (h : nlen ≠ 14) (s : State) :
    execKeyloadDes nlen s = raise .invalidKeySize s :=
  if_neg h

/-- Settles O19: 14 digits build the slot that `loadKeySlot` writes, any other number raises. -/
theorem keyloadDesBuildsInstance : Obligations.KeyloadDesBuildsInstance := by
  refine ⟨fun nlen h => encodeKeyload_toNat_of_lt 0#2 h, fun s => ⟨?_, fun nlen hne => ?_⟩⟩
  · exact execKeyloadDes_fourteen s
  · exact (execKeyloadDes_of_ne hne s).trans (raise_invalidKeySize s)

theorem execKeyloadTdes_fortyTwo (s : State) :
    execKeyloadTdes 42 s =
      succeed (s.loadKeySlot .tdes #v[loadedSchedule s 0, loadedSchedule s 1, loadedSchedule s 2] zeroRoundKeys) :=
  if_pos rfl

theorem execKeyloadTdes_of_ne {nlen : Nat} (h : nlen ≠ 42) (s : State) :
    execKeyloadTdes nlen s = raise .invalidKeySize s :=
  if_neg h

/-- Settles O20: with 42 digits the three slices of `KEYIN` are `desKeyDigits` of 0, 1 and 2. -/
theorem keyloadTdesBuildsInstance : Obligations.KeyloadTdesBuildsInstance := by
  refine ⟨fun nlen h => encodeKeyload_toNat_of_lt 1#2 h, fun s => ⟨?_, fun nlen hne => ?_⟩⟩
  · exact execKeyloadTdes_fortyTwo s
  · exact (execKeyloadTdes_of_ne hne s).trans (raise_invalidKeySize s)

theorem aesKeyWords_eq_none {nlen : Nat} (h32 : nlen ≠ 32) (h48 : nlen ≠ 48) (h64 : nlen ≠ 64) :
    aesKeyWords nlen = none := by
  unfold aesKeyWords
  split <;> simp_all

theorem execKeyloadAes_of_some {nlen nk : Nat} (h : aesKeyWords nlen = some nk) (s : State) :
    execKeyloadAes nlen s = succeed (s.loadKeySlot (aesAlg nk) zeroDk (aesDeriveRka nk (keyByte s.keyin))) := by
  rw [execKeyloadAes, h]

theorem execKeyloadAes_of_none {nlen : Nat} (h : aesKeyWords nlen = none) (s : State) :
    execKeyloadAes nlen s = raise .invalidKeySize s := by
  rw [execKeyloadAes, h]

/-- Settles O21: the three recognised lengths one by one, every other length by `aesKeyWords_eq_none`. -/
theorem keyloadAesBuildsInstance : Obligations.KeyloadAesBuildsInstance := by
  refine ⟨fun nlen h => encodeKeyload_toNat_of_lt 2#2 h,
    fun s => ⟨fun nlen alg hmem => ?_, fun nlen h32 h48 h64 => ?_⟩⟩
  · simp only [List.mem_cons, Prod.mk.injEq, List.not_mem_nil, or_false] at hmem
    obtain ⟨rfl, rfl⟩ | ⟨rfl, rfl⟩ | ⟨rfl, rfl⟩ := hmem
    · exact execKeyloadAes_of_some (nlen := 32) rfl s
    · exact execKeyloadAes_of_some (nlen := 48) rfl s
    · exact execKeyloadAes_of_some (nlen := 64) rfl s
  · exact (execKeyloadAes_of_none (aesKeyWords_eq_none h32 h48 h64) s).trans (raise_invalidKeySize s)

/-- Settles O22: the command is the one update `clearKeys`, and then success. -/
theorem keyclrErasesKeyMaterial : Obligations.KeyclrErasesKeyMaterial := ⟨rfl, execKeyclr_eq⟩

end Sys2Proof.Machine

/-! ## The bit permutations (R150, R158, R193) -/

namespace Sys2Proof.Machine

/-- Settles O25: bit `i` from the most significant end of either side is bit `width - 1 - i` in LSB-0 terms. -/
theorem permuteMovesEachBit : Obligations.PermuteMovesEachBit := by
  intro inW outW table x i t hlen hbound ht
  obtain ⟨hi, hmem⟩ := List.getElem?_eq_some_iff.mp ht
  have hiw : i < outW := hlen ▸ hi
  have htw : t < inW := hbound t (hmem ▸ List.getElem_mem hi)
  have hbit : (permute table outW x).getMsbD i = x.getMsbD t := by
    rw [permute_getMsbD table outW x hlen i hiw, ht, Option.getD_some]
  simpa [BitVec.getMsbD, hiw, htw] using hbit

/-- Settles O26: each table sends every position to where the other took its bit from. -/
theorem finalPermutationInvertsInitial : Obligations.FinalPermutationInvertsInitial :=
  fun v => ⟨permute_fp_ip v, permute_ip_fp v⟩

/-- R158's description of `E`, entry by entry. -/
theorem expansionTable_getElem? :
    ∀ c < 8, ∀ k < 6, expansionTable[6 * c + k]? = some ((4 * c + 31 + k) % 32) := by decide

/-- Settles O27, from the table's entries. -/
theorem expansionTakesOverlappingChunks : Obligations.ExpansionTakesOverlappingChunks := by
  intro h c k hc hk
  rw [permute_getMsbD expansionTable 48 h rfl _ (by omega), expansionTable_getElem? c hc k hk,
    Option.getD_some]

/-- A permutation reads only the positions its table lists (R150). -/
theorem permute_congr {inW : Nat} {table : List Nat} {x y : BitVec inW} (outW : Nat)
    (h : ∀ t ∈ table, x.getMsbD t = y.getMsbD t) : permute table outW x = permute table outW y :=
  List.foldl_ext _ _ _ fun acc t ht => congrArg acc.shiftConcat (h t ht)

theorem desDerive_toArray (kc : BitVec 64) :
    (desDerive kc).toArray = (desSubkeys shifts (leftHalf kc) (rightHalf kc)).toArray := rfl

/-- The subkeys depend on the container through the permuted key alone (R191). -/
theorem desDerive_congr {kc kc' : BitVec 64} (h : permutedKey kc = permutedKey kc') :
    desDerive kc = desDerive kc' := by
  refine Vector.toArray_inj.mp ?_
  simp only [desDerive_toArray, leftHalf, rightHalf, h]

/-- `PC1` lists no least significant bit of a container byte (R158). -/
theorem parityMask_getMsbD_of_mem_pc1Table :
    ∀ t ∈ pc1Table, (0x0101010101010101#64).getMsbD t = false := by decide

/-- Settles O28: the flipped bits are positions that `PC1` does not read. -/
theorem parityBitsHaveNoEffect : Obligations.ParityBitsHaveNoEffect := by
  intro kc m
  refine desDerive_congr (permute_congr 56 fun t ht => ?_)
  rw [BitVec.getMsbD_xor, BitVec.getMsbD_and, parityMask_getMsbD_of_mem_pc1Table t ht, Bool.and_false,
    Bool.xor_false]

end Sys2Proof.Machine

/-! ## The DES S-boxes (R172 to R174) -/

namespace Sys2Proof.Machine

/-- The digits printed for `SBOXD` are the entries of the two-dimensional ROMs (R173). -/
theorem sboxd_toNat_eq_sboxChunk : ∀ s < 8, ∀ c : BitVec 6, sboxd s c.toNat = sboxChunk s c := by
  decide +kernel

/-- A nibble driven at place `j` is read back there, and leaves the other places zero. -/
theorem extractLsb'_nibble_shiftLeft (v : BitVec 4) {i : Nat} (hi : i < 8) (j : Nat) :
    (v.setWidth 32 <<< (4 * j)).extractLsb' (4 * i) 4 = if j = i then v else 0#4 := by
  refine BitVec.eq_of_getLsbD_eq fun k hk => ?_
  rw [BitVec.getLsbD_extractLsb', BitVec.getLsbD_shiftLeft, BitVec.getLsbD_setWidth]
  obtain hlt | rfl | hgt := Nat.lt_trichotomy j i
  · rw [if_neg hlt.ne, v.getLsbD_of_ge _ (by omega)]
    simp
  · rw [if_pos rfl, Nat.add_sub_cancel_left]
    simp [hk, show 4 * j + k < 32 by omega, show k < 32 by omega]
  · rw [if_neg hgt.ne']
    simp [show 4 * i + k < 4 * j by omega]

/-- Joining nibbles `0` to `n - 1` into a word of zeros puts each at its own place. -/
theorem extractLsb'_foldl_or_nibble (d : Nat → BitVec 4) {i : Nat} (hi : i < 8) (n : Nat) :
    ((List.range n).foldl (fun acc j => acc ||| ((d j).setWidth 32 <<< (4 * j))) 0#32).extractLsb' (4 * i) 4 =
      if i < n then d i else 0#4 := by
  induction n with
  | zero => exact BitVec.extractLsb'_zero
  | succ n ih =>
    rw [List.range_succ, List.foldl_append, List.foldl_cons, List.foldl_nil, BitVec.extractLsb'_or, ih,
      extractLsb'_nibble_shiftLeft _ hi]
    obtain hlt | rfl | hgt := Nat.lt_trichotomy i n
    · simp [hlt, hlt.ne', Nat.lt_succ_of_lt hlt]
    · simp
    · simp [hgt.not_gt, hgt.ne, show ¬ i < n + 1 by omega]

/-- Nibble `i` of `Substitute` is what ROM `7 - i` gives for chunk `i` (R172). -/
theorem extractLsb'_substitute (x : BitVec 48) {i : Nat} (hi : i < 8) :
    (substitute x).extractLsb' (4 * i) 4 = sboxChunk (7 - i) (x.extractLsb' (6 * i) 6) :=
  (extractLsb'_foldl_or_nibble (fun j => sboxChunk (7 - j) (x.extractLsb' (6 * j) 6)) hi 8).trans (if_pos hi)

/-- Settles O31: the tables entry by entry, and `Substitute` nibble by nibble. -/
theorem substituteReadsTheDirectRoms : Obligations.SubstituteReadsTheDirectRoms := by
  refine ⟨fun s c hs => sboxd_toNat_eq_sboxChunk s hs c, fun x i hi => ?_⟩
  rw [extractLsb'_substitute x hi, sboxd_toNat_eq_sboxChunk (7 - i) (by omega)]

/-- Settles O32: the 32 rows are finitely many, and each is compared with 0 to 15. -/
theorem sboxRowsArePermutations : Obligations.SboxRowsArePermutations := by
  have hrows : ∀ s < 8, ∀ row < 4,
      ((List.range 16).map (sbox s row)).Perm ((List.range 16).map (BitVec.ofNat 4)) := by decide +kernel
  exact fun s row hs hrow => hrows s hs row hrow

end Sys2Proof.Machine

/-! ## The DES key schedule (R191, R193, R195) -/

namespace Sys2Proof.Machine

/-! ### The accumulated rotations -/

/-- The formula of R10 is the rotation of a 28-bit word. -/
theorem rol28_eq_rotateLeft {n : Nat} (hn : n < 28) (v : BitVec 28) : rol28 v n = v.rotateLeft n :=
  (BitVec.rotateLeft_eq_rotateLeftAux_of_lt hn).symm

theorem rotateLeft_rotateLeft {w : Nat} (x : BitVec w) (a b : Nat) :
    (x.rotateLeft a).rotateLeft b = x.rotateLeft (a + b) := by
  refine eq_of_getMsbD fun i hi => ?_
  have hlt : (b + i) % w < w := Nat.mod_lt _ (by omega)
  simp only [BitVec.getMsbD_rotateLeft, hi, hlt, decide_true, Bool.true_and, Nat.add_mod_mod, Nat.add_assoc]

theorem rotateLeft_width {w : Nat} (x : BitVec w) : x.rotateLeft w = x := by
  refine eq_of_getMsbD fun i hi => ?_
  simp [BitVec.getMsbD_rotateLeft, hi, Nat.mod_eq_of_lt hi]

/-- Rotating in place accumulates: subkey `r` is taken from halves rotated by the first `r + 1` entries together. -/
theorem desSubkeys_getElem {ns : List Nat} (hns : ∀ n ∈ ns, n < 28) (c d : BitVec 28) {r : Nat}
    (hr : r < (desSubkeys ns c d).length) :
    (desSubkeys ns c d)[r] = permute pc2Table 48
      (c.rotateLeft (ns.take (r + 1)).sum ++ d.rotateLeft (ns.take (r + 1)).sum) := by
  induction ns generalizing c d r with
  | nil => exact absurd hr (Nat.not_lt_zero r)
  | cons n ns ih =>
    obtain ⟨hn, hrest⟩ := List.forall_mem_cons.mp hns
    simp only [desSubkeys, rol28_eq_rotateLeft hn]
    cases r with
    | zero => simp
    | succ r =>
      rw [List.getElem_cons_succ, ih hrest]
      simp [rotateLeft_rotateLeft]

/-- R191 in closed form. -/
theorem desDerive_getElem (kc : BitVec 64) {r : Nat} (hr : r < 16) :
    (desDerive kc)[r] = permute pc2Table 48
      ((leftHalf kc).rotateLeft (totalShift r) ++ (rightHalf kc).rotateLeft (totalShift r)) :=
  desSubkeys_getElem (by decide) (leftHalf kc) (rightHalf kc) (by rwa [desSubkeys_length])

theorem leftHalf_append_rightHalf (kc : BitVec 64) : leftHalf kc ++ rightHalf kc = permutedKey kc := by
  rw [leftHalf, rightHalf, BitVec.extractLsb'_append_extractLsb'_eq_extractLsb' (by decide)]
  exact BitVec.extractLsb'_eq_self

/-- The sixteen shifts add up to a whole turn of each half (R190, R193). -/
theorem totalShift_fifteen : totalShift 15 = 28 := rfl

/-- Settles O30: the closed form of every subkey, and a whole turn for the last. -/
theorem subkeysComeFromRotatedHalves : Obligations.SubkeysComeFromRotatedHalves := by
  intro kc r hr
  refine ⟨desDerive_getElem kc hr, ?_⟩
  rw [desDerive_getElem kc (by decide), totalShift_fifteen, rotateLeft_width, rotateLeft_width,
    leftHalf_append_rightHalf, permutedKey]

/-! ### Which key bits reach the subkeys -/

/-- A permutation shows every position its table lists, and no other (R150). -/
theorem permute_eq_iff {inW outW : Nat} {table : List Nat} (hlen : table.length = outW) {x y : BitVec inW} :
    permute table outW x = permute table outW y ↔ ∀ t ∈ table, x.getMsbD t = y.getMsbD t := by
  refine ⟨fun h t ht => ?_, permute_congr outW⟩
  obtain ⟨i, hi, rfl⟩ := List.mem_iff_getElem.mp ht
  have hbit := congrArg (·.getMsbD i) h
  simpa [permute_getMsbD table outW _ hlen i (hlen ▸ hi), hi] using hbit

/-- The position in `C || D` that stands at position `p`, below 56, when both halves are rotated left by `n`. -/
def rotatedIndex (n p : Nat) : Nat := if p < 28 then (n + p) % 28 else 28 + (n + (p - 28)) % 28

theorem rotatedHalves_getMsbD (kc : BitVec 64) (n : Nat) {p : Nat} (hp : p < 56) :
    ((leftHalf kc).rotateLeft n ++ (rightHalf kc).rotateLeft n).getMsbD p =
      (permutedKey kc).getMsbD (rotatedIndex n p) := by
  rw [← leftHalf_append_rightHalf, BitVec.getMsbD_append, BitVec.getMsbD_append, rotatedIndex]
  by_cases h : p < 28
  · have hturn : (n + p) % 28 < 28 := Nat.mod_lt _ (by decide)
    simp [h, h.not_ge, hturn.not_ge, BitVec.getMsbD_rotateLeft]
  · simp [h, not_lt.mp h, BitVec.getMsbD_rotateLeft, show p - 28 < 28 by omega]

/-- Every position of the permuted key is read by `PC2` after some of the rotations (R193). -/
theorem exists_rotatedIndex_eq :
    ∀ q < 56, ∃ r < 16, ∃ p ∈ pc2Table, rotatedIndex (totalShift r) p = q := by decide

theorem lt_of_mem_pc2Table : ∀ p ∈ pc2Table, p < 56 := by decide

/-- The subkeys together determine the permuted key: every selected key bit appears in some subkey (R193). -/
theorem permutedKey_eq_of_desDerive_eq {kc kc' : BitVec 64} (h : desDerive kc = desDerive kc') :
    permutedKey kc = permutedKey kc' := by
  refine eq_of_getMsbD fun q hq => ?_
  obtain ⟨r, hr, p, hp, rfl⟩ := exists_rotatedIndex_eq q hq
  have hp56 := lt_of_mem_pc2Table p hp
  have hsub : (desDerive kc)[r] = (desDerive kc')[r] := by rw [h]
  rw [desDerive_getElem kc hr, desDerive_getElem kc' hr] at hsub
  rw [← rotatedHalves_getMsbD kc _ hp56, ← rotatedHalves_getMsbD kc' _ hp56]
  exact (permute_eq_iff rfl).mp hsub p hp

/-- Two containers give the same subkeys exactly when they agree on the bits that `PC1` selects (R191, R193). -/
theorem desDerive_eq_iff {kc kc' : BitVec 64} :
    desDerive kc = desDerive kc' ↔ ∀ t ∈ pc1Table, kc.getMsbD t = kc'.getMsbD t :=
  ⟨fun h => (permute_eq_iff rfl).mp (permutedKey_eq_of_desDerive_eq h),
    fun h => desDerive_congr (permute_congr 56 h)⟩

theorem pack56_zeroExtend (k : BitVec 56) : pack56 .zeroExtend k = k.setWidth 64 := rfl

/-- Flipping key bits that lie on least significant bits of container bytes flips only those (R195). -/
theorem pack56_zeroExtend_xor_parity (k m : BitVec 56) :
    pack56 .zeroExtend (k ^^^ (m &&& 0x01010101010101#56)) =
      pack56 .zeroExtend k ^^^ (pack56 .zeroExtend (m &&& 0x01010101010101#56) &&& 0x0101010101010101#64) := by
  have hmask : (0x01010101010101#56).setWidth 64 &&& 0x0101010101010101#64 =
      (0x01010101010101#56).setWidth 64 := by decide
  simp only [pack56_zeroExtend, BitVec.setWidth_xor, BitVec.setWidth_and, BitVec.and_assoc, hmask]

/-- Key bit `b` stands at MSB-0 position `63 - b` of the container (R195). -/
theorem pack56_zeroExtend_getMsbD (k : BitVec 56) {b : Nat} (hb : b < 56) :
    (pack56 .zeroExtend k).getMsbD (63 - b) = k.getLsbD b := by
  rw [pack56_zeroExtend, BitVec.getMsbD_eq_getLsbD, BitVec.getLsbD_setWidth, show 64 - 1 - (63 - b) = b by omega]
  simp [show 63 - b < 64 by omega, show b < 64 by omega]

/-- `PC1` selects every key bit but the least significant one of each byte (R156, R195). -/
theorem mem_pc1Table_of_mod_ne : ∀ b < 56, b % 8 ≠ 0 → 63 - b ∈ pc1Table := by decide

/-- Settles O29: seven bits stand where `PC1` does not read, and the subkeys determine the other 49. -/
theorem zeroExtendedKeyUsesFortyNineBits : Obligations.ZeroExtendedKeyUsesFortyNineBits := by
  intro k m
  refine ⟨BitVec.toNat_setWidth_of_le (by decide), ?_, fun b hb hmod hsame => ?_⟩
  · rw [pack56_zeroExtend_xor_parity]
    exact parityBitsHaveNoEffect _ _
  · have hbit := desDerive_eq_iff.mp hsame (63 - b) (mem_pc1Table_of_mod_ne b hb hmod)
    rw [pack56_zeroExtend_getMsbD _ hb, pack56_zeroExtend_getMsbD _ hb, BitVec.getLsbD_xor,
      BitVec.getLsbD_shiftLeft] at hbit
    simp [hb] at hbit

end Sys2Proof.Machine

/-! ## The DES block transform: inverse directions and palindromic schedules (R214) -/

namespace Sys2Proof.Machine

/-- Settles O33: both compositions are the cancellation laws of the block transform. -/
theorem desDirectionsAreInverse : Obligations.DesDirectionsAreInverse :=
  fun block sub => ⟨desDecrypt_desEncrypt block sub, desEncrypt_desDecrypt block sub⟩

theorem toList_reverse_of_palindromic {sub : DesSchedule} (h : ∀ (n : Nat) (_ : n < 16), sub[n] = sub[15 - n]) :
    sub.toList.reverse = sub.toList := by
  refine List.ext_getElem List.length_reverse fun n _ hn => ?_
  have hn16 : n < 16 := by simpa using hn
  simpa [List.getElem_reverse] using (h n hn16).symm

/-- Settles O34: the directions differ only in the order of the subkeys, and this order reads the same reversed. -/
theorem palindromicScheduleMergesDirections : Obligations.PalindromicScheduleMergesDirections := by
  intro block sub h
  rw [desEncrypt, desDecrypt, toList_reverse_of_palindromic h]

end Sys2Proof.Machine

/-! ## Triple-DES: inverse directions and equal neighbouring thirds (R234, R235) -/

namespace Sys2Proof.Machine

/-- Settles O35: both compositions are the cancellation laws of triple-DES. -/
theorem tdesDirectionsAreInverse : Obligations.TdesDirectionsAreInverse :=
  fun x s1 s2 s3 => ⟨tdesDecrypt_tdesEncrypt x s1 s2 s3, tdesEncrypt_tdesDecrypt x s1 s2 s3⟩

/-- With equal first thirds the middle decryption undoes the first encryption (R235). -/
theorem tdesEncrypt_of_first_eq_second (x : BitVec 64) (s t : DesSchedule) :
    tdesEncrypt x s s t = desEncrypt x t := by
  rw [tdesEncrypt, desDecrypt_desEncrypt]

/-- With equal last thirds the last encryption undoes the middle decryption (R235). -/
theorem tdesEncrypt_of_second_eq_third (x : BitVec 64) (s t : DesSchedule) :
    tdesEncrypt x s t t = desEncrypt x s := by
  rw [tdesEncrypt, desEncrypt_desDecrypt]

/-- Settles O36: in each half the two neighbouring passes under one array cancel. -/
theorem tdesWithEqualThirdsIsDes : Obligations.TdesWithEqualThirdsIsDes :=
  fun x s t => ⟨tdesEncrypt_of_first_eq_second x s t, tdesEncrypt_of_second_eq_third x s t⟩

end Sys2Proof.Machine

/-! ## The field of AES: products and inverses (R240 to R242) -/

namespace Sys2Proof.Machine

/-! ### The product is linear over the polynomial ring in its left operand -/

/-- A map of bytes that keeps XOR and multiplication by the polynomial `x` (R240). -/
structure FieldLinear (f : Byte → Byte) : Prop where
  map_xor : ∀ a b, f (a ^^^ b) = f a ^^^ f b
  map_xtime : ∀ a, f (xtime a) = xtime (f a)

theorem FieldLinear.map_zero {f : Byte → Byte} (hf : FieldLinear f) : f 0#8 = 0#8 := by
  have h := hf.map_xor 0#8 0#8
  rwa [BitVec.xor_self, BitVec.xor_self] at h

theorem FieldLinear.map_xtimes {f : Byte → Byte} (hf : FieldLinear f) (n : Nat) (a : Byte) :
    f (xtimes n a) = xtimes n (f a) := by
  induction n with
  | zero => rfl
  | succ n ih => rw [xtimes, hf.map_xtime, ih, xtimes]

theorem FieldLinear.map_foldl {f : Byte → Byte} (hf : FieldLinear f) (a b : Byte) (is : List Nat) (acc : Byte) :
    f (is.foldl (fun t i => if b.getLsbD i then t ^^^ xtimes i a else t) acc) =
      is.foldl (fun t i => if b.getLsbD i then t ^^^ xtimes i (f a) else t) (f acc) := by
  induction is generalizing acc with
  | nil => rfl
  | cons i is ih =>
    rw [List.foldl_cons, List.foldl_cons, ih]
    congr 1
    split
    · rw [hf.map_xor, hf.map_xtimes]
    · rfl

/-- A product is a sum of `xtimes` of its left operand, so a field-linear map passes into that operand. -/
theorem FieldLinear.map_gmul {f : Byte → Byte} (hf : FieldLinear f) (a b : Byte) : f (gmul a b) = gmul (f a) b := by
  have h := hf.map_foldl a b (List.range 8) 0#8
  rwa [hf.map_zero] at h

theorem fieldLinear_xtime : FieldLinear xtime := ⟨xtime_xor, fun _ => rfl⟩

theorem fieldLinear_gmul (c : Byte) : FieldLinear (gmul · c) where
  map_xor a b := gmul_xor_left a b c
  map_xtime a := (fieldLinear_xtime.map_gmul a c).symm

/-! ### The laws of the product -/

theorem one_gmul (b : Byte) : gmul 1#8 b = b := by
  revert b
  decide +kernel

/-- Multiplication by `b` is field-linear, so it is known from its value at 1. -/
theorem gmul_comm (a b : Byte) : gmul a b = gmul b a :=
  calc gmul a b = gmul (gmul 1#8 a) b := by rw [one_gmul]
    _ = gmul (gmul 1#8 b) a := (fieldLinear_gmul b).map_gmul 1#8 a
    _ = gmul b a := by rw [one_gmul]

theorem gmul_one (a : Byte) : gmul a 1#8 = a := by rw [gmul_comm, one_gmul]

theorem gmul_assoc (a b c : Byte) : gmul (gmul a b) c = gmul a (gmul b c) :=
  calc gmul (gmul a b) c = gmul (gmul b a) c := by rw [gmul_comm a b]
    _ = gmul (gmul b c) a := ((fieldLinear_gmul a).map_gmul b c).symm
    _ = gmul a (gmul b c) := gmul_comm _ _

theorem gmul_xor_right (a b c : Byte) : gmul a (b ^^^ c) = gmul a b ^^^ gmul a c := by
  rw [gmul_comm a, gmul_xor_left, gmul_comm b, gmul_comm c]

/-- Settles O37: the laws of a product that is field-linear in its left operand and has the unit 1. -/
theorem fieldMultiplicationLaws : Obligations.FieldMultiplicationLaws :=
  fun a b c => ⟨gmul_comm a b, gmul_assoc a b c, gmul_xor_right a b c⟩

/-! ### The inverse, and the S-box as its affine map -/

theorem eq_of_gmul_eq_one {a b c : Byte} (hb : gmul a b = 1#8) (hc : gmul a c = 1#8) : b = c :=
  calc b = gmul b (gmul a c) := by rw [hc, gmul_one]
    _ = gmul (gmul a b) c := by rw [← gmul_assoc, gmul_comm b]
    _ = c := by rw [hb, one_gmul]

/-- A byte is the inverse as soon as its product with `a` is 1: the search of `ginv` ends at no other byte. -/
theorem ginv_eq_of_gmul_eq_one {a b : Byte} (h : gmul a b = 1#8) : ginv a = b := by
  have ha : a ≠ 0#8 := by
    rintro rfl
    rw [zero_gmul] at h
    exact absurd h (by decide)
  rw [ginv, if_neg ha]
  cases hfind : ((List.range 256).map (BitVec.ofNat 8)).find? (fun b => gmul a b == 1#8) with
  | none =>
    have hmem : b ∈ (List.range 256).map (BitVec.ofNat 8) :=
      List.mem_map.mpr ⟨b.toNat, List.mem_range.mpr b.isLt, by simp⟩
    exact absurd (beq_iff_eq.mpr h) (List.find?_eq_none.mp hfind b hmem)
  | some c =>
    have hc : (gmul a c == 1#8) = true := List.find?_some (p := fun b => gmul a b == 1#8) hfind
    exact eq_of_gmul_eq_one (beq_iff_eq.mp hc) h

/-- The affine map of the S-box (R241). -/
def affineMap (b : Byte) : Byte :=
  b ^^^ b.rotateLeft 1 ^^^ b.rotateLeft 2 ^^^ b.rotateLeft 3 ^^^ b.rotateLeft 4 ^^^ 0x63#8

/-- The inverse of `affineMap`. -/
def affineInverse (s : Byte) : Byte :=
  s.rotateLeft 1 ^^^ s.rotateLeft 3 ^^^ s.rotateLeft 6 ^^^ 0x05#8

theorem affineMap_affineInverse (s : Byte) : affineMap (affineInverse s) = s := by
  revert s
  decide +kernel

/-- One product for each entry of the table `ASBOX`. -/
theorem gmul_affineInverse_asbox (a : Byte) : a ≠ 0#8 → gmul a (affineInverse (asbox a)) = 1#8 := by
  revert a
  decide +kernel

/-- Undoing the affine map of a table entry gives the inverse that `ginv` searches for. -/
theorem ginv_eq_affineInverse_asbox (a : Byte) : ginv a = affineInverse (asbox a) := by
  by_cases ha : a = 0#8
  · subst ha
    rfl
  · exact ginv_eq_of_gmul_eq_one (gmul_affineInverse_asbox a ha)

theorem gmul_ginv {a : Byte} (ha : a ≠ 0#8) : gmul a (ginv a) = 1#8 := by
  rw [ginv_eq_affineInverse_asbox, gmul_affineInverse_asbox a ha]

theorem asbox_eq_affineMap_ginv (a : Byte) : asbox a = affineMap (ginv a) := by
  rw [ginv_eq_affineInverse_asbox, affineMap_affineInverse]

/-- Settles O38: the table is the affine map of the only byte that can be the inverse. -/
theorem aesSboxIsAffineOfInverse : Obligations.AesSboxIsAffineOfInverse :=
  fun a => ⟨gmul_ginv, asbox_eq_affineMap_ginv a, ainv_asbox a⟩

end Sys2Proof.Machine

/-! ## The AES expansion (R245) -/

namespace Sys2Proof.Machine

theorem wordAt_append_left {ws : List AesWord} {i : Nat} (us : List AesWord) (h : i < ws.length) :
    wordAt (ws ++ us) i = wordAt ws i := by
  rw [wordAt, wordAt, List.getElem?_append_left h]

theorem wordAt_concat_length (ws : List AesWord) (w : AesWord) : wordAt (ws ++ [w]) ws.length = w := by
  simp [wordAt]

/-- The word that the recurrence of R245 puts after the words `ws`. -/
def nextWord (nk : Nat) (ws : List AesWord) : AesWord :=
  (wordAt ws (ws.length - nk)).xor (expandTerm nk ws.length (wordAt ws (ws.length - 1)))

theorem expandWords_succ (nk n : Nat) (ws : List AesWord) :
    expandWords nk (n + 1) ws = expandWords nk n (ws ++ [nextWord nk ws]) := rfl

theorem length_expandWords (nk n : Nat) (ws : List AesWord) :
    (expandWords nk n ws).length = ws.length + n := by
  induction n generalizing ws with
  | zero => rfl
  | succ n ih =>
    rw [expandWords_succ, ih, List.length_append, List.length_singleton]
    omega

/-- Words once written stay. -/
theorem wordAt_expandWords_of_lt (nk n : Nat) {ws : List AesWord} {i : Nat} (h : i < ws.length) :
    wordAt (expandWords nk n ws) i = wordAt ws i := by
  induction n generalizing ws with
  | zero => rfl
  | succ n ih =>
    have hlonger : i < (ws ++ [nextWord nk ws]).length := by
      rw [List.length_append]
      omega
    rw [expandWords_succ, ih hlonger, wordAt_append_left _ h]

/-- Each new word reads words before it only, so the finished array obeys the recurrence of R245. -/
theorem wordAt_expandWords {nk : Nat} (hnk : 0 < nk) (n : Nat) {ws : List AesWord} (hws : nk ≤ ws.length) {i : Nat}
    (hi : ws.length ≤ i) (hn : i < ws.length + n) :
    wordAt (expandWords nk n ws) i =
      (wordAt (expandWords nk n ws) (i - nk)).xor (expandTerm nk i (wordAt (expandWords nk n ws) (i - 1))) := by
  induction n generalizing ws with
  | zero => omega
  | succ n ih =>
    have hlen : (ws ++ [nextWord nk ws]).length = ws.length + 1 := List.length_append
    by_cases hnew : i = ws.length
    · have hword : wordAt (expandWords nk (n + 1) ws) i = nextWord nk ws := by
        rw [expandWords_succ, wordAt_expandWords_of_lt nk n (by omega), hnew, wordAt_concat_length]
      have hwindow : wordAt (expandWords nk (n + 1) ws) (i - nk) = wordAt ws (i - nk) :=
        wordAt_expandWords_of_lt nk (n + 1) (by omega)
      have hprev : wordAt (expandWords nk (n + 1) ws) (i - 1) = wordAt ws (i - 1) :=
        wordAt_expandWords_of_lt nk (n + 1) (by omega)
      rw [hword, hwindow, hprev, hnew, nextWord]
    · rw [expandWords_succ]
      exact ih (by omega) (by omega) (by omega)

theorem length_keyWords (nk : Nat) (key : Nat → Byte) : (keyWords nk key).length = nk := by
  simp [keyWords]

theorem wordAt_keyWords {nk i : Nat} (key : Nat → Byte) (h : i < nk) :
    wordAt (keyWords nk key) i = ⟨key (4 * i), key (4 * i + 1), key (4 * i + 2), key (4 * i + 3)⟩ := by
  simp [wordAt, keyWords, h]

theorem length_aesExpand (nk : Nat) (key : Nat → Byte) : (aesExpand nk key).length = 4 * (nk + 7) := by
  rw [aesExpand, length_expandWords, length_keyWords, roundsOf]
  omega

/-- Settles O40: the length, the kept key words and the recurrence of `expandWords`, started from the key's words. -/
theorem aesExpansionRecurrence : Obligations.AesExpansionRecurrence := by
  intro nk key hmem
  have hpos : 0 < nk := Nat.pos_of_ne_zero fun hzero => by simp [hzero] at hmem
  have hlen : (keyWords nk key).length = nk := length_keyWords nk key
  refine ⟨length_aesExpand nk key, fun i hi => ?_, fun i hi hlast => ?_⟩
  · rw [aesExpand, wordAt_expandWords_of_lt _ _ (by omega), wordAt_keyWords key hi]
  · exact wordAt_expandWords hpos _ (by omega) (by omega) (by rw [roundsOf]; omega)

end Sys2Proof.Machine

/-! ## The AES block transform: what the round steps and the two directions satisfy (R272 to R282) -/

namespace Sys2Proof.Machine

/-- Settles O39: the four inverse laws step by step, and the additivity of `invMixColumn` carried to whole states. -/
theorem aesStepsHaveInverses : Obligations.AesStepsHaveInverses :=
  fun s k => ⟨invSubBytes_subBytes s, invShiftRows_shiftRows s, invMixColumns_mixColumns s,
    addRoundKey_addRoundKey s k, invMixColumns_addRoundKey s k⟩

/-- Settles O42: decryption is the direct inverse, which takes the rounds back one by one. The premise on the keys is what
this rests on, and it serves every number of rounds. -/
theorem aesDirectionsAreInverse : Obligations.AesDirectionsAreInverse :=
  fun b _ _ _ hkeys => ⟨aesDecrypt_aesEncrypt hkeys b, aesEncrypt_aesDecrypt hkeys b⟩

/-- Settles O43: `undoSubShift` carries the rounds of the equivalent inverse to those of the direct one
(`undoSubShift_aesInvRound`), for every number of rounds. -/
theorem equivalentInverseEqualsDirectInverse : Obligations.EquivalentInverseEqualsDirectInverse :=
  fun b _ _ _ hkeys => aesDecrypt_eq_directDecrypt hkeys b

end Sys2Proof.Machine

/-! ## The lengths of a padded stream (R307, R308, R312) -/

namespace Sys2Proof.Machine

theorem cutBytes_zero (b : Nat) : cutBytes 0 b = 0 := Nat.mod_self b

theorem cutBytes_of_pos {rem b : Nat} (hpos : 0 < rem) (hlt : rem < b) : cutBytes rem b = b - rem :=
  Nat.mod_eq_of_lt (Nat.sub_lt (hpos.trans hlt) hpos)

theorem cutBytes_lt (rem : Nat) {b : Nat} (hb : 0 < b) : cutBytes rem b < b := Nat.mod_lt _ hb

/-- The padding of R307 is what `STRD` cuts off for the remainder of the same length (R311). -/
theorem streamPad_eq_cutBytes (len b : Nat) : streamPad len b = cutBytes (streamRem len b) b := rfl

/-- Remainder and padding determine each other in the same way (R308). -/
theorem cutBytes_cutBytes {rem b : Nat} (h : rem < b) : cutBytes (cutBytes rem b) b = rem := by
  obtain rfl | hpos := Nat.eq_zero_or_pos rem
  · rw [cutBytes_zero, cutBytes_zero]
  · rw [cutBytes_of_pos hpos h, cutBytes_of_pos (by omega) (by omega)]
    omega

theorem paddedLen_zero (b : Nat) : paddedLen 0 b = 0 := by
  rw [paddedLen, streamPad_eq_cutBytes, streamRem, Nat.zero_mod, cutBytes_zero]

theorem paddedLen_of_dvd {len b : Nat} (h : b ∣ len) : paddedLen len b = len := by
  rw [paddedLen, streamPad_eq_cutBytes, streamRem, Nat.mod_eq_zero_of_dvd h, cutBytes_zero, Nat.add_zero]

theorem dvd_paddedLen (len : Nat) {b : Nat} (hb : 0 < b) : b ∣ paddedLen len b :=
  ⟨blockCount len b, (blockBytes_mul_blockCount len hb).symm⟩

/-- An output that is streamed again needs no padding. -/
theorem paddedLen_paddedLen (len : Nat) {b : Nat} (hb : 0 < b) : paddedLen (paddedLen len b) b = paddedLen len b :=
  paddedLen_of_dvd (dvd_paddedLen len hb)

/-- Settles O50. -/
theorem paddedLengthIsWholeBlocks : Obligations.PaddedLengthIsWholeBlocks := by
  intro len b hsize
  have hb : 0 < b := by omega
  have hrem : cutBytes (streamPad len b) b = streamRem len b := cutBytes_cutBytes (Nat.mod_lt len hb)
  exact ⟨(blockBytes_mul_blockCount len hb).symm, len_le_paddedLen len b,
    Nat.add_lt_add_left (streamPad_lt len hb) len, hrem.symm, rfl⟩

/-- For a possible remainder, there is less output than `STRD` cuts off only when there is none (R311). -/
theorem paddedLen_lt_cutBytes_iff {len rem b : Nat} (hrem : rem < b) :
    paddedLen len b < cutBytes rem b ↔ len = 0 ∧ rem ≠ 0 := by
  have hb : 0 < b := Nat.zero_lt_of_lt hrem
  constructor
  · intro hcut
    have hzero : paddedLen len b = 0 :=
      Nat.eq_zero_of_dvd_of_lt (dvd_paddedLen len hb) (hcut.trans (cutBytes_lt rem hb))
    refine ⟨Nat.eq_zero_of_le_zero (hzero ▸ len_le_paddedLen len b), ?_⟩
    rintro rfl
    rw [cutBytes_zero] at hcut
    exact Nat.not_lt_zero _ hcut
  · rintro ⟨rfl, hne⟩
    rw [paddedLen_zero, cutBytes_of_pos (Nat.pos_of_ne_zero hne) hrem]
    omega

theorem cutBytes_le_paddedLen {len rem b : Nat} (hrem : rem < b) (hempty : len = 0 → rem = 0) :
    cutBytes rem b ≤ paddedLen len b := by
  refine Nat.not_lt.mp fun hcut => ?_
  obtain ⟨hlen, hne⟩ := (paddedLen_lt_cutBytes_iff hrem).mp hcut
  exact hne (hempty hlen)

/-- What `STRD` cuts off for the remainder of the original length leaves that length (R318). -/
theorem paddedLen_sub_cutBytes_streamRem (len b : Nat) : paddedLen len b - cutBytes (streamRem len b) b = len :=
  Nat.add_sub_cancel len _

/-! ### The lengths in the registers -/

theorem bufBytes_lt (cfg : Config) : cfg.bufBytes < 2 ^ 32 := by
  have hblocks := cfg.bufBlocksLessOne.isLt
  rw [Config.bufBytes]
  omega

/-- No stream that fits a buffer has a block whose number leaves `IDX`. -/
theorem blockIndex_lt {s : State} {c : Cipher} (hfit : s.padded c ≤ s.cfg.bufBytes) {i : Nat}
    (hi : i < blockCount s.len.toNat c.blockBytes) : i < 2 ^ 64 := by
  have hcount : blockCount s.len.toNat c.blockBytes ≤ s.padded c := Nat.div_le_self _ _
  have hbuf := bufBytes_lt s.cfg
  omega

/-- A count of padding, remaining or cut bytes fits its 8-bit register (R35). -/
theorem toNat_ofNat_mod_blockBytes (c : Cipher) (n : Nat) :
    (BitVec.ofNat 8 (n % c.blockBytes)).toNat = n % c.blockBytes := by
  have hmod : n % c.blockBytes < c.blockBytes := Nat.mod_lt n (blockBytes_pos c)
  refine Nat.mod_eq_of_lt ?_
  obtain hb | hb := blockBytes_cases c <;> omega

/-- A length that fits the buffer fits its 32-bit register (R8, R312). -/
theorem toNat_ofNat_of_le_bufBytes {cfg : Config} {n : Nat} (h : n ≤ cfg.bufBytes) : (BitVec.ofNat 32 n).toNat = n :=
  Nat.mod_eq_of_lt (h.trans_lt (bufBytes_lt cfg))

end Sys2Proof.Machine

/-! ## The keystream and the command on one block (R301 to R305) -/

namespace Sys2Proof.Machine

theorem Cipher.narrow_narrow (c : Cipher) (x : Block) : c.narrow (c.narrow x) = c.narrow x := by
  cases c <;> simp [Cipher.narrow, Cipher.width]

theorem Cipher.narrow_xor (c : Cipher) (x y : Block) : c.narrow (x ^^^ y) = c.narrow x ^^^ c.narrow y := by
  cases c <;> simp [Cipher.narrow, Cipher.width, BitVec.setWidth_xor]

/-- A cipher's output has no bit above its width. -/
theorem Cipher.narrow_encrypt (c : Cipher) (x : Block) : c.narrow (c.encrypt x) = c.encrypt x := by
  cases c <;> simp [Cipher.narrow, Cipher.width, Cipher.encrypt]

/-- The stream transform undoes itself on the block of the cipher's width (R304). -/
theorem Cipher.streamBlock_streamBlock (c : Cipher) (nonce x : Block) (i : BitVec 64) :
    c.streamBlock nonce (c.streamBlock nonce x i) i = c.narrow x := by
  have hkey : c.narrow (c.keystream nonce i) = c.keystream nonce i := c.narrow_encrypt _
  simp only [Cipher.streamBlock]
  rw [c.narrow_xor, c.narrow_narrow, hkey, BitVec.xor_assoc, BitVec.xor_self, BitVec.xor_zero]

theorem streamBlock_des (sub : DesSchedule) (nonce x : Block) (i : BitVec 64) :
    (Cipher.des sub).streamBlock nonce x i =
      (x.setWidth 64 ^^^ desEncrypt (nonce.setWidth 64 ^^^ i) sub).setWidth 128 := by
  simp [Cipher.streamBlock, Cipher.keystream, Cipher.encrypt, Cipher.narrow, Cipher.width, BitVec.setWidth_xor]

theorem streamBlock_tdes (s1 s2 s3 : DesSchedule) (nonce x : Block) (i : BitVec 64) :
    (Cipher.tdes s1 s2 s3).streamBlock nonce x i =
      (x.setWidth 64 ^^^ tdesEncrypt (nonce.setWidth 64 ^^^ i) s1 s2 s3).setWidth 128 := by
  simp [Cipher.streamBlock, Cipher.keystream, Cipher.encrypt, Cipher.narrow, Cipher.width, BitVec.setWidth_xor]

theorem streamBlock_aes (rk : RoundKeys) (nr : Nat) (nonce x : Block) (i : BitVec 64) :
    (Cipher.aes rk nr).streamBlock nonce x i =
      x ^^^ ofAesBlock (aesEncrypt (toAesBlock (nonce ^^^ i.setWidth 128)) rk nr) := by
  simp [Cipher.streamBlock, Cipher.keystream, Cipher.encrypt, Cipher.narrow, Cipher.width]

/-- Settles O48: `StreamBlock` of each kind of cipher. -/
theorem ctrxXorsTheKeystream : Obligations.CtrxXorsTheKeystream := by
  intro s
  obtain ⟨hnone, hdes, htdes, haes⟩ := withCipher_writeDout_cases s fun c => c.streamBlock s.nonce s.din s.idx
  simp only [streamBlock_des, streamBlock_tdes, streamBlock_aes] at hdes htdes haes
  exact ⟨hnone, hdes, htdes, haes⟩

theorem exec_ctrx_of_cipher {s : State} {c : Cipher} (h : s.cipher = some c) :
    exec .ctrx s = .next { s with dout := c.streamBlock s.nonce s.din s.idx, err := .ok } := withCipher_of_some h _

/-- Settles O49: the first run leaves the key slot, the nonce and the index, so the second takes the same keystream. -/
theorem ctrxIsItsOwnInverse : Obligations.CtrxIsItsOwnInverse := by
  intro s halg
  obtain ⟨c, hc⟩ := cipher_isSome halg
  have hback := c.streamBlock_streamBlock s.nonce s.din s.idx
  rw [narrow_of_cipher hc] at hback
  exact ⟨_, _, exec_ctrx_of_cipher hc, rfl, exec_ctrx_of_cipher hc, hback, rfl⟩

end Sys2Proof.Machine

/-! ## The output of a stream command, byte by byte (R301, R309, R310, R65) -/

namespace Sys2Proof.Machine

/-- The keystream byte for address `a` of a stream: byte `a mod B` of the keystream block `a / B` (R301, R65). -/
def Cipher.keystreamByte (c : Cipher) (nonce : Block) (a : Nat) : Byte :=
  (c.keystream nonce (BitVec.ofNat 64 (a / c.blockBytes))).extractLsb' (8 * (c.blockBytes - 1 - a % c.blockBytes)) 8

theorem mul_add_div_of_lt {b i j : Nat} (hj : j < b) : (b * i + j) / b = i := by
  rw [Nat.mul_add_div (Nat.zero_lt_of_lt hj), Nat.div_eq_of_lt hj, Nat.add_zero]

theorem mul_add_lt_paddedLen {len b i j : Nat} (hi : i < blockCount len b) (hj : j < b) :
    b * i + j < paddedLen len b := by
  rwa [← div_lt_blockCount (Nat.zero_lt_of_lt hj), mul_add_div_of_lt hj]

theorem Cipher.keystreamByte_mul_add (c : Cipher) (nonce : Block) {i j : Nat} (hi : i < 2 ^ 64)
    (hj : j < c.blockBytes) :
    c.keystreamByte nonce (c.blockBytes * i + j) =
      (c.encrypt (c.narrow nonce ^^^ BitVec.ofNat 128 i)).extractLsb' (8 * (c.blockBytes - 1 - j)) 8 := by
  have hindex : (BitVec.ofNat 64 i).setWidth 128 = BitVec.ofNat 128 i :=
    BitVec.setWidth_ofNat_of_le_of_lt (by decide) hi
  rw [Cipher.keystreamByte, mul_add_div_of_lt hj, Nat.mul_add_mod, Nat.mod_eq_of_lt hj, Cipher.keystream, hindex]

/-- Below the padded length every byte of `OBUF` is the padded input byte XOR the keystream byte. -/
theorem bufByte_streamed_of_lt {s : State} {c : Cipher} {a : Nat} (h : a < s.padded c) (rem pad : BitVec 8)
    (olen : BitVec 32) :
    (s.streamed c rem pad olen).bufByte .obuf a = s.inByte a ^^^ c.keystreamByte s.nonce a := by
  have hplace : c.blockBytes * (a / c.blockBytes) + a % c.blockBytes = a := Nat.div_add_mod a c.blockBytes
  have hwritten : (s.streamOutput c).written a = some (s.inByte a ^^^ c.keystreamByte s.nonce a) := by
    rw [written_streamOutput, if_pos h, getElem?_outBlock s c _ (Nat.mod_lt a (blockBytes_pos c)), hplace]
    rfl
  rw [bufByte_obuf, State.streamed, hwritten, Option.getD_some]

/-- From the padded length on `OBUF` is left. -/
theorem bufByte_streamed_of_ge {s : State} {c : Cipher} {a : Nat} (h : s.padded c ≤ a) (rem pad : BitVec 8)
    (olen : BitVec 32) : (s.streamed c rem pad olen).bufByte .obuf a = s.bufByte .obuf a := by
  rw [bufByte_obuf, bufByte_obuf, State.streamed, written_streamOutput, if_neg (Nat.not_lt.mpr h)]

/-- Byte `j` of block `i` of a stream's output, in the terms of R301 and R309. -/
theorem bufByte_streamed_block {s : State} {c : Cipher} (hfit : s.padded c ≤ s.cfg.bufBytes) {i j : Nat}
    (hi : i < blockCount s.len.toNat c.blockBytes) (hj : j < c.blockBytes) (rem pad : BitVec 8) (olen : BitVec 32) :
    (s.streamed c rem pad olen).bufByte .obuf (c.blockBytes * i + j) =
      (if c.blockBytes * i + j < s.len.toNat then s.bufByte .ibuf (c.blockBytes * i + j) else 0) ^^^
      (c.encrypt (c.narrow s.nonce ^^^ BitVec.ofNat 128 i)).extractLsb' (8 * (c.blockBytes - 1 - j)) 8 := by
  rw [bufByte_streamed_of_lt (mul_add_lt_paddedLen hi hj), c.keystreamByte_mul_add _ (blockIndex_lt hfit hi) hj,
    State.inByte]
  rfl

/-- The same byte as a byte of the block that `StreamBlock` gives (R303). -/
theorem bufByte_streamed_eq_streamBlock {s : State} {c : Cipher} {i j : Nat}
    (hi : i < blockCount s.len.toNat c.blockBytes) (hj : j < c.blockBytes) (rem pad : BitVec 8) (olen : BitVec 32) :
    (s.streamed c rem pad olen).bufByte .obuf (c.blockBytes * i + j) =
      (c.streamBlock s.nonce (beValue (s.inBlock c.blockBytes i)) (BitVec.ofNat 64 i)).extractLsb'
        (8 * (c.blockBytes - 1 - j)) 8 := by
  have hlt : c.blockBytes * i + j < s.padded c := mul_add_lt_paddedLen hi hj
  have hwritten := written_streamOutput s c (c.blockBytes * i + j)
  rw [if_pos hlt, mul_add_div_of_lt hj, Nat.mul_add_mod, Nat.mod_eq_of_lt hj, State.outBlock,
    getElem?_beBytes _ hj] at hwritten
  rw [bufByte_obuf, State.streamed, hwritten, Option.getD_some]

end Sys2Proof.Machine

/-! ## The order of the blocks and the number of lanes (R315, R316) -/

namespace Sys2Proof.Machine

/-- What the blocks leave depends only on which blocks there are. -/
theorem streamBlocks_congr {s : State} (hwf : s.obuf.wf) (c : Cipher) {order order' : List Nat}
    (h : ∀ i, i ∈ order ↔ i ∈ order') : s.streamBlocks c order = s.streamBlocks c order' := by
  refine eq_of_written (foldl_storeBlock_wf s c order hwf) (foldl_storeBlock_wf s c order' hwf) fun x => ?_
  simp only [State.streamBlocks, written_foldl_storeBlock, h]

theorem mem_laneOrder_lanes (cfg : Config) {nb i : Nat} : i ∈ laneOrder cfg.lanes nb ↔ i < nb :=
  mem_laneOrder (Nat.succ_pos _)

/-- The state of a core with `lanes + 1` lanes. -/
def State.withLanes (lanes : Nat) (s : State) : State := { s with cfg := { s.cfg with lanesLessOne := lanes } }

/-- An outcome with another number of lanes in its state. -/
def relane (lanes : Nat) : Result → Result
  | .next t => .next (t.withLanes lanes)
  | r => r

theorem streamOutput_withLanes {s : State} (hwf : s.obuf.wf) (lanes : Nat) (c : Cipher) :
    (s.withLanes lanes).streamOutput c = s.streamOutput c :=
  streamBlocks_congr hwf c fun _ => (mem_laneOrder_lanes (s.withLanes lanes).cfg).trans (mem_laneOrder_lanes s.cfg).symm

theorem withCipher_withLanes {lanes : Nat} {s : State} {run run' : Cipher → Result}
    (h : ∀ c, run' c = relane lanes (run c)) :
    withCipher (s.withLanes lanes) run' = relane lanes (withCipher s run) := by
  have hcipher : (s.withLanes lanes).cipher = s.cipher := rfl
  unfold withCipher
  rw [hcipher]
  cases s.cipher with
  | none => rfl
  | some c => exact h c

theorem exec_stre_withLanes {s : State} (hwf : s.obuf.wf) (lanes : Nat) :
    exec .stre (s.withLanes lanes) = relane lanes (exec .stre s) := by
  refine withCipher_withLanes fun c => ?_
  rw [streamOutput_withLanes hwf, apply_ite (relane lanes)]
  rfl

theorem exec_strd_withLanes {s : State} (hwf : s.obuf.wf) (lanes : Nat) :
    exec .strd (s.withLanes lanes) = relane lanes (exec .strd s) := by
  refine withCipher_withLanes fun c => ?_
  rw [streamOutput_withLanes hwf, apply_ite (relane lanes), apply_ite (relane lanes), apply_ite (relane lanes)]
  rfl

/-- Settles O54: the blocks that are processed decide the output, and neither their order nor the lanes change those. -/
theorem laneOrderCannotBeObserved : Obligations.LaneOrderCannotBeObserved := by
  intro s hwf
  refine ⟨fun c order hperm => streamBlocks_congr hwf c fun i => ?_,
    fun lanes t => ⟨fun hrun => ?_, fun hrun => ?_⟩⟩
  · rw [hperm.mem_iff, List.mem_range, mem_laneOrder_lanes]
  · exact (exec_stre_withLanes hwf lanes).trans (congrArg (relane lanes) hrun)
  · exact (exec_strd_withLanes hwf lanes).trans (congrArg (relane lanes) hrun)

end Sys2Proof.Machine

/-! ## `STRE` and `STRD` (R310 to R312, R318, R348) -/

namespace Sys2Proof.Machine

/-- The state `STRE` leaves when the padded input fits (R310). -/
def State.afterStre (s : State) (c : Cipher) : State :=
  (s.streamed c (BitVec.ofNat 8 (streamRem s.len.toNat c.blockBytes))
    (BitVec.ofNat 8 (streamPad s.len.toNat c.blockBytes)) (BitVec.ofNat 32 (s.padded c))).clearErr

/-- The state `STRD` leaves when its checks pass (R311). -/
def State.afterStrd (s : State) (c : Cipher) : State :=
  (s.streamed c s.rem (BitVec.ofNat 8 (cutBytes s.rem.toNat c.blockBytes))
    (BitVec.ofNat 32 (s.padded c - cutBytes s.rem.toNat c.blockBytes))).clearErr

/-! ### What the commands answer -/

theorem exec_stre_of_cipher {s : State} {c : Cipher} (h : s.cipher = some c) :
    exec .stre s = if s.cfg.bufBytes < s.padded c then raise .bufferOverflow s else .next (s.afterStre c) :=
  withCipher_of_some h _

/-- `STRD` with the second check of R311 said of `LEN` and `REM`. -/
theorem exec_strd_of_cipher {s : State} {c : Cipher} (h : s.cipher = some c) :
    exec .strd s =
      if c.blockBytes ≤ s.rem.toNat then raise .badOperand s
      else if s.len.toNat = 0 ∧ s.rem.toNat ≠ 0 then raise .badOperand s
      else if s.cfg.bufBytes < s.padded c then raise .bufferOverflow s
      else .next (s.afterStrd c) := by
  refine (withCipher_of_some h _).trans (if_ctx_congr Iff.rfl (fun _ => rfl) fun hrem => ?_)
  exact if_congr (paddedLen_lt_cutBytes_iff (Nat.not_le.mp hrem)) rfl rfl

theorem exec_stre_of_fits {s : State} {c : Cipher} (h : s.cipher = some c) (hfit : s.padded c ≤ s.cfg.bufBytes) :
    exec .stre s = .next (s.afterStre c) :=
  (exec_stre_of_cipher h).trans (if_neg (Nat.not_lt.mpr hfit))

theorem exec_strd_of_fits {s : State} {c : Cipher} (h : s.cipher = some c) (hrem : s.rem.toNat < c.blockBytes)
    (hempty : s.len.toNat = 0 → s.rem.toNat = 0) (hfit : s.padded c ≤ s.cfg.bufBytes) :
    exec .strd s = .next (s.afterStrd c) := by
  have hpossible : ¬ (s.len.toNat = 0 ∧ s.rem.toNat ≠ 0) := fun ⟨hlen, hne⟩ => hne (hempty hlen)
  rw [exec_strd_of_cipher h, if_neg (Nat.not_le.mpr hrem), if_neg hpossible, if_neg (Nat.not_lt.mpr hfit)]

/-- Settles O52. -/
theorem streRefusesOverflow : Obligations.StreRefusesOverflow := by
  intro s halg hover
  obtain ⟨c, hc⟩ := cipher_isSome halg
  rw [← blockBytes_of_cipher hc] at hover
  exact (exec_stre_of_cipher hc).trans (if_pos hover)

/-- Settles O18, check by check. -/
theorem strdReportsTheFirstError : Obligations.StrdReportsTheFirstError := by
  intro s t hrun
  by_cases halg : s.alg = .none
  · obtain rfl : s.logError .noKey = t := raise_eq_next.mp ((withCipher_of_none halg _).symm.trans hrun)
    rw [if_pos halg, logError_err]
  · obtain ⟨c, hc⟩ := cipher_isSome halg
    have hpadded : paddedLen s.len.toNat c.blockBytes = s.padded c := rfl
    rw [exec_strd_of_cipher hc] at hrun
    rw [if_neg halg, ← blockBytes_of_cipher hc, hpadded]
    split_ifs at hrun ⊢ with hrem hempty hover
    · rw [← raise_eq_next.mp hrun, logError_err]
    · rw [← raise_eq_next.mp hrun, logError_err]
    · rw [← raise_eq_next.mp hrun, logError_err]
    · rw [← Host.Outcome.next.inj hrun, State.afterStrd, clearErr_err]

/-! ### The registers and the output after a success -/

theorem afterStre_olen_toNat {s : State} {c : Cipher} (hfit : s.padded c ≤ s.cfg.bufBytes) :
    (s.afterStre c).olen.toNat = s.padded c := toNat_ofNat_of_le_bufBytes hfit

theorem afterStre_rem_toNat (s : State) (c : Cipher) :
    (s.afterStre c).rem.toNat = streamRem s.len.toNat c.blockBytes := toNat_ofNat_mod_blockBytes c _

theorem afterStre_pad_toNat (s : State) (c : Cipher) :
    (s.afterStre c).pad.toNat = streamPad s.len.toNat c.blockBytes := toNat_ofNat_mod_blockBytes c _

theorem afterStrd_pad_toNat (s : State) (c : Cipher) :
    (s.afterStrd c).pad.toNat = cutBytes s.rem.toNat c.blockBytes := toNat_ofNat_mod_blockBytes c _

theorem afterStrd_olen_toNat {s : State} {c : Cipher} (hfit : s.padded c ≤ s.cfg.bufBytes) :
    (s.afterStrd c).olen.toNat = s.padded c - cutBytes s.rem.toNat c.blockBytes :=
  toNat_ofNat_of_le_bufBytes ((Nat.sub_le _ _).trans hfit)

/-- Settles O51. -/
theorem streEncryptsThePaddedInput : Obligations.StreEncryptsThePaddedInput := by
  intro s c B hc hB hfit
  obtain rfl : B = c.blockBytes := hB.trans (blockBytes_of_cipher hc).symm
  refine ⟨s.afterStre c, exec_stre_of_fits hc hfit, rfl, afterStre_rem_toNat s c, afterStre_pad_toNat s c,
    afterStre_olen_toNat hfit, fun i j hi hj => ?_, fun a ha => ?_⟩
  · rw [State.afterStre, clearErr_bufByte, bufByte_streamed_block hfit hi hj]
  · rw [State.afterStre, clearErr_bufByte, bufByte_streamed_of_ge ha]

/-- Settles O53: the cut is no longer than the output, since `REM` is possible. -/
theorem strdDecryptsAndCuts : Obligations.StrdDecryptsAndCuts := by
  intro s c B hc hB hrem hempty hfit
  obtain rfl : B = c.blockBytes := hB.trans (blockBytes_of_cipher hc).symm
  have hcut : cutBytes s.rem.toNat c.blockBytes ≤ s.padded c := cutBytes_le_paddedLen hrem hempty
  refine ⟨s.afterStrd c, exec_strd_of_fits hc hrem hempty hfit, rfl, afterStrd_pad_toNat s c, ?_,
    fun i j hi hj => ?_, fun a ha => ?_⟩
  · rw [afterStrd_olen_toNat hfit, afterStrd_pad_toNat, Nat.sub_add_cancel hcut]
    rfl
  · rw [State.afterStrd, clearErr_bufByte, bufByte_streamed_block hfit hi hj]
  · rw [State.afterStrd, clearErr_bufByte, bufByte_streamed_of_ge ha]

/-! ### `STRE` against `CTRX` and `STRD` -/

/-- Settles O56: both write the bytes of the same `StreamBlock`. -/
theorem streAgreesWithCtrx : Obligations.StreAgreesWithCtrx := by
  intro s t B i halg hB hrun hok hi
  obtain ⟨c, hc⟩ := cipher_isSome halg
  obtain rfl : B = c.blockBytes := hB.trans (blockBytes_of_cipher hc).symm
  obtain rfl : s.afterStre c = t := by
    rw [exec_stre_of_cipher hc] at hrun
    split_ifs at hrun with hover
    · rw [← raise_eq_next.mp hrun, logError_err] at hok
      cases hok
    · exact Host.Outcome.next.inj hrun
  refine ⟨_, exec_ctrx_of_cipher (c := c) hc, rfl, fun j hj => ?_⟩
  rw [State.afterStre, clearErr_bufByte, bufByte_streamed_eq_streamBlock hi hj]

theorem cipher_congr {s u : State} (halg : u.alg = s.alg) (hdk : u.dk = s.dk) (hrka : u.rka = s.rka) :
    u.cipher = s.cipher := by
  rw [State.cipher, State.cipher, halg, hdk, hrka]

theorem inByte_of_lt {s : State} {a : Nat} (h : a < s.len.toNat) : s.inByte a = s.bufByte .ibuf a := if_pos h

theorem inByte_of_ge {s : State} {a : Nat} (h : s.len.toNat ≤ a) : s.inByte a = 0#8 := if_neg (Nat.not_lt.mpr h)

theorem afterStre_bufByte_of_lt {s : State} {c : Cipher} {a : Nat} (h : a < s.padded c) :
    (s.afterStre c).bufByte .obuf a = s.inByte a ^^^ c.keystreamByte s.nonce a := by
  rw [State.afterStre, clearErr_bufByte, bufByte_streamed_of_lt h]

theorem afterStrd_bufByte_of_lt {s : State} {c : Cipher} {a : Nat} (h : a < s.padded c) :
    (s.afterStrd c).bufByte .obuf a = s.inByte a ^^^ c.keystreamByte s.nonce a := by
  rw [State.afterStrd, clearErr_bufByte, bufByte_streamed_of_lt h]

/-- A state whose input is the output of `STRE` from `s` needs no padding. -/
theorem padded_of_copied {s u : State} {c : Cipher} (hlen : u.len.toNat = s.padded c) : u.padded c = s.padded c := by
  rw [State.padded, hlen]
  exact paddedLen_paddedLen _ (blockBytes_pos c)

/-- From such a state the second pass takes the same keystream off again. -/
theorem afterStrd_bufByte_of_copied {s u : State} {c : Cipher} (hnonce : u.nonce = s.nonce)
    (hlen : u.len.toNat = s.padded c)
    (hcopied : ∀ a, a < s.padded c → u.bufByte .ibuf a = (s.afterStre c).bufByte .obuf a) {a : Nat}
    (ha : a < s.padded c) : (u.afterStrd c).bufByte .obuf a = s.inByte a := by
  have hin : u.inByte a = s.inByte a ^^^ c.keystreamByte s.nonce a := by
    rw [inByte_of_lt (hlen ▸ ha), hcopied a ha, afterStre_bufByte_of_lt ha]
  have hlt : a < u.padded c := ha.trans_eq (padded_of_copied hlen).symm
  rw [afterStrd_bufByte_of_lt hlt, hin, hnonce, BitVec.xor_assoc, BitVec.xor_self, BitVec.xor_zero]

/-- Settles O55: `STRD` passes its checks on the copied output, cuts off what `STRE` added, and the bytes are those of
`afterStrd_bufByte_of_copied`. -/
theorem streamRoundTrip : Obligations.StreamRoundTrip := by
  intro s t u B halg hB hfit hrun hualg hudk hurka hunonce hucfg hurem hulen hcopied
  obtain ⟨c, hc⟩ := cipher_isSome halg
  obtain rfl : B = c.blockBytes := hB.trans (blockBytes_of_cipher hc).symm
  obtain rfl : s.afterStre c = t := Host.Outcome.next.inj ((exec_stre_of_fits hc hfit).symm.trans hrun)
  have huc : u.cipher = some c := (cipher_congr hualg hudk hurka).trans hc
  have holen : (s.afterStre c).olen.toNat = s.padded c := afterStre_olen_toNat hfit
  have hlen : u.len.toNat = s.padded c := by rw [hulen, holen]
  have hrem : u.rem.toNat = streamRem s.len.toNat c.blockBytes := by rw [hurem, afterStre_rem_toNat]
  have hpadded : u.padded c = s.padded c := padded_of_copied hlen
  have hle : s.len.toNat ≤ s.padded c := len_le_paddedLen _ _
  have hremlt : u.rem.toNat < c.blockBytes := hrem ▸ Nat.mod_lt _ (blockBytes_pos c)
  have hempty : u.len.toNat = 0 → u.rem.toNat = 0 := fun hzero => by
    have hslen : s.len.toNat = 0 := by omega
    rw [hrem, streamRem, hslen, Nat.zero_mod]
  have hufit : u.padded c ≤ u.cfg.bufBytes := by
    rw [hpadded, hucfg]
    exact hfit
  rw [holen] at hcopied
  have hback := fun a (ha : a < s.padded c) => afterStrd_bufByte_of_copied (s := s) hunonce hlen hcopied ha
  refine ⟨u.afterStrd c, exec_strd_of_fits huc hremlt hempty hufit, rfl, ?_, fun a ha => ?_, fun a hge hlt => ?_⟩
  · rw [← BitVec.toNat_inj, afterStrd_olen_toNat hufit, hpadded, hrem]
    exact paddedLen_sub_cutBytes_streamRem _ _
  · rw [hback a (ha.trans_le hle), inByte_of_lt ha]
  · rw [hback a hlt, inByte_of_ge hge]
    rfl

end Sys2Proof.Machine

/-! ## Exceptions: how a write of `CMD` ends, and that every step goes on (R342, R350 to R353) -/

namespace Sys2Proof.Machine

/-! ### A write of `CMD` fails or succeeds -/

theorem logBit_of_ne_ok {e : ErrCode} (h : e ≠ .ok) : e.logBit = 1#5 <<< (e.code.toNat - 1) := if_neg h

/-- A command fails and changes only `ERR` and `ELOG` (R350), or it succeeds and leaves `ELOG` (R351). -/
theorem EndsIn.failed_or_succeeded {i : Instr} {s t : State} (h : EndsIn s i t) :
    (∃ e, e ≠ .ok ∧ t = s.logError e) ∨ (t.err = .ok ∧ t.elog = s.elog) := by
  cases h with
  | error e he => exact .inl ⟨e, he, rfl⟩
  | _ => exact .inr ⟨rfl, rfl⟩

/-- The state a write of `CMD` decodes and runs from: the access is taken off the queue and `CMD` holds the word (R120). -/
def State.takeCmd (rest : List HostAction) (v : HostValue) (s : State) : State :=
  { s.takeAccess rest with cmd := v.setWidth 16 }

/-- The same two ends for a whole step, whatever the word: one that does not decode fails (R343). -/
theorem step_cmd_failed_or_succeeded {s t : State} {v : HostValue} {rest : List HostAction}
    (hq : s.hostQueue = .writeReg 0 v :: rest) (hstep : step s = .next t) :
    (∃ e, e ≠ .ok ∧ t = (s.takeCmd rest v).logError e) ∨ (t.err = .ok ∧ t.elog = s.elog) := by
  rw [step_of_cons hq] at hstep
  obtain ⟨i, -, hrun⟩ | ⟨d, -, rfl⟩ := writeCmd_eq_next.mp hstep
  · exact (exec_endsIn hrun).failed_or_succeeded
  · exact .inl ⟨.illegalCommand, by decide, rfl⟩

/-- Settles O14: a step that shows an error is one that failed, and `State.logError` is the state the statement writes out. -/
theorem failingCommandChangesOnlyStatus : Obligations.FailingCommandChangesOnlyStatus := by
  intro s t v rest hq hstep herr
  obtain ⟨e, he, rfl⟩ | ⟨hok, -⟩ := step_cmd_failed_or_succeeded hq hstep
  · rw [logError_err, ← logBit_of_ne_ok he]
    rfl
  · exact absurd hok herr

/-- Settles O15: a step that failed shows its error, so one with `ERR = 0` succeeded. -/
theorem successKeepsTheErrorLog : Obligations.SuccessKeepsTheErrorLog := by
  intro s t v rest hq hstep hok
  obtain ⟨e, he, rfl⟩ | ⟨-, helog⟩ := step_cmd_failed_or_succeeded hq hstep
  · exact absurd hok he
  · exact helog

/-! ### The commands that need a cipher -/

theorem exec_eq_withCipher {i : Instr} (hi : i ∈ [Instr.enc, .dec, .ctrx, .stre, .strd]) (s : State) :
    ∃ run, exec i s = withCipher s run := by
  cases i with
  | enc => exact ⟨_, rfl⟩
  | dec => exact ⟨_, rfl⟩
  | ctrx => exact ⟨_, rfl⟩
  | stre => exact ⟨_, rfl⟩
  | strd => exact ⟨_, rfl⟩
  | _ => simp at hi

/-- Settles O12: each of the five begins with the check for a cipher, and that check raises `NoKey`. -/
theorem noInstanceMeansNoKey : Obligations.NoInstanceMeansNoKey := by
  intro i s hi halg
  obtain ⟨run, hrun⟩ := exec_eq_withCipher hi s
  rw [hrun, withCipher_of_none halg, raise_noKey]

/-! ### No step faults or refuses -/

/-- The outcome is a next state. -/
def GoesOn (r : Result) : Prop := ∃ t, r = .next t

theorem goesOn_raise (e : ErrCode) (s : State) : GoesOn (raise e s) := ⟨_, rfl⟩

theorem goesOn_succeed (s : State) : GoesOn (succeed s) := ⟨_, rfl⟩

theorem goesOn_ite {p : Prop} [Decidable p] {a b : Result} (ha : GoesOn a) (hb : GoesOn b) :
    GoesOn (if p then a else b) := by
  split
  · exact ha
  · exact hb

theorem goesOn_withCipher {s : State} {run : Cipher → Result} (h : ∀ c, GoesOn (run c)) :
    GoesOn (withCipher s run) := by
  unfold withCipher
  cases s.cipher with
  | none => exact goesOn_raise .noKey s
  | some c => exact h c

/-- Every command ends in a success or an error, and both have a next state (R350, R351). -/
theorem goesOn_exec (i : Instr) (s : State) : GoesOn (exec i s) := by
  cases i with
  | keyloadDes nlen => exact goesOn_ite (goesOn_succeed _) (goesOn_raise _ s)
  | keyloadTdes nlen => exact goesOn_ite (goesOn_succeed _) (goesOn_raise _ s)
  | keyloadAes nlen =>
    simp only [exec, execKeyloadAes]
    cases aesKeyWords nlen with
    | some nk => exact goesOn_succeed _
    | none => exact goesOn_raise _ s
  | keyclr => exact goesOn_succeed s.clearKeys
  | enc => exact goesOn_withCipher fun _ => goesOn_succeed _
  | dec => exact goesOn_withCipher fun _ => goesOn_succeed _
  | ctrx => exact goesOn_withCipher fun _ => goesOn_succeed _
  | stre => exact goesOn_withCipher fun _ => goesOn_ite (goesOn_raise _ s) (goesOn_succeed _)
  | strd =>
    exact goesOn_withCipher fun _ =>
      goesOn_ite (goesOn_raise _ s) (goesOn_ite (goesOn_raise _ s) (goesOn_ite (goesOn_raise _ s) (goesOn_succeed _)))

theorem goesOn_writeCmd (w : CommandWord) (s : State) : GoesOn (writeCmd w s) := by
  unfold writeCmd
  cases decodeWord w with
  | ok i => exact goesOn_exec i _
  | error d => exact goesOn_raise _ _

theorem goesOn_hostAccess (act : HostAction) (s : State) : GoesOn (hostAccess act s) := by
  by_cases hcmd : ∃ v, act = .writeReg 0 v
  · obtain ⟨v, rfl⟩ := hcmd
    exact goesOn_writeCmd (v.setWidth 16) s
  · exact ⟨_, hostAccess_of_not_cmd s fun v hv => hcmd ⟨v, hv⟩⟩

/-- Settles O13: with nothing waiting the core stays as it is, and every access goes on. -/
theorem everyStepGoesOn : Obligations.EveryStepGoesOn := by
  intro s
  match hq : s.hostQueue with
  | [] => exact ⟨s, step_of_nil hq⟩
  | act :: rest =>
    rw [step_of_cons hq]
    exact goesOn_hostAccess act (s.takeAccess rest)

end Sys2Proof.Machine
